-- ==== Sys2Proof/Word.lean ====
section
/-! DEFINITION. The word types of the machine: every word the MMU reads, holds or assembles is 32 bits
(spec/30_encoding.md R80), memory is addressed by bytes (spec/20_memory.md R50). -/

namespace Sys2Proof

/-- A 32-bit word: a virtual or physical address, a descriptor or a CP15 register (R4, R80). -/
abbrev Word := BitVec 32

/-- One byte of main memory (R50). -/
abbrev Byte := BitVec 8

end Sys2Proof
end

