-- ==== Sys2Proof/Machine/Vocabulary.lean ====
section
/-! DEFINITION. The spec's vocabulary as plain data: kinds of access, privilege states, regions, TLB entries and
slots, aborts, the results of a walk and the requests the processor makes. -/

namespace Sys2Proof.Machine

/-- The kind of an `ACCESS` (R110): an instruction fetch, or one of "all other kinds of access". -/
inductive AccessKind where
  | ifetch
  | read
  | write
deriving DecidableEq, Repr, Inhabited

/-- The privilege state that reaches the MMU with an access (R23, R199). -/
inductive Priv where
  | user
  | privileged
deriving DecidableEq, Repr, Inhabited

/-- The names of the TLBs (R28): `TLB_U` of a unified system, `TLB_I` and `TLB_D` of a split one. -/
inductive TlbName where
  | unified
  | instruction
  | data
deriving DecidableEq, Repr, Inhabited

/-- The level of a TLB entry or of an abort (R29, R192): section (节) or page. -/
inductive Level where
  | sect
  | page
deriving DecidableEq, Repr, Inhabited

/-- The four sizes of region (R160): section 1 MB, large page 64 KB, small page 4 KB, tiny page 1 KB. -/
inductive RegionSize where
  | sect
  | large
  | small
  | tiny
deriving DecidableEq, Repr, Inhabited

/-- `log2` of the size in bytes (R30, R120, R160). -/
def RegionSize.log2 : RegionSize → Nat
  | .sect => 20
  | .large => 16
  | .small => 12
  | .tiny => 10

/-- Which kind of second-level table a first-level descriptor gives (R168, R169). -/
inductive TableKind where
  | coarse
  | fine
deriving DecidableEq, Repr, Inhabited

/-- Access-control bits of an entry (R29, R161): one 2-bit field for the whole region (section, tiny page) or one
for each of the four subpages in address order (small, large page; log entry 16). -/
inductive AccessBits where
  | whole (ap : BitVec 2)
  | perSubpage (ap0 ap1 ap2 ap3 : BitVec 2)
deriving DecidableEq, Repr, Inhabited

/-- A used TLB entry, field by field the record of R29. `imp` holds the implementation-defined bits of the
first-level descriptor (log entry 33). -/
structure TlbEntry where
  vaBase : Word
  size : RegionSize
  paBase : Word
  ap : AccessBits
  domain : BitVec 4
  c : BitVec 1
  b : BitVec 1
  imp : BitVec 3
  level : Level
  locked : Bool
deriving DecidableEq, Repr, Inhabited

/-- `w` is aligned to a region of the given size (R29: "aligned to size"). -/
def RegionSize.aligned (size : RegionSize) (w : Word) : Bool :=
  w.extractLsb' 0 size.log2 == 0

/-- The entry is one the rules can speak of (R29, R161): bases aligned to the size, one access-control field exactly
for sections and tiny pages, section level exactly for sections. -/
def TlbEntry.legal (e : TlbEntry) : Bool :=
  e.size.aligned e.vaBase && e.size.aligned e.paBase &&
    (match e.size, e.ap, e.level with
      | .sect, .whole _, .sect => true
      | .tiny, .whole _, .page => true
      | .large, .perSubpage _ _ _ _, .page => true
      | .small, .perSubpage _ _ _ _, .page => true
      | _, _, _ => false)

/-- A slot of a TLB (R29, R37): unused, holding one walk result, or (only when `P_TLB_CACHES_FAULTS`) a fault mark
for the megabyte at `vaBase`. -/
inductive Slot where
  | unused
  | entry (e : TlbEntry)
  | faultMark (vaBase : Word)
deriving DecidableEq, Repr, Inhabited

/-- The slot holds what R29 allows: a legal entry, or an aligned fault mark if the parameter allows one. -/
def Slot.legal (cachesFaults : Bool) : Slot → Bool
  | .unused => true
  | .entry e => e.legal
  | .faultMark vaBase => cachesFaults && RegionSize.sect.aligned vaBase

/-- The TLBs of the system (R28, R37): the constructor is `P_TLB_SPLIT`, the length of each list is that TLB's
`P_TLB_ENTRIES` (log entry 7). -/
inductive Tlbs where
  | unified (u : List Slot)
  | split (i d : List Slot)
deriving DecidableEq, Repr, Inhabited

/-- Apply one change to every TLB of the system. -/
def Tlbs.map (f : List Slot → List Slot) : Tlbs → Tlbs
  | .unified u => .unified (f u)
  | .split i d => .split (f i) (f d)

/-- A slot the rules allow, as it is; any other as unused (used for the contents at reset only, log entry 3). -/
def Slot.legalOrUnused (cachesFaults : Bool) (x : Slot) : Slot :=
  if x.legal cachesFaults then x else .unused

/-- Why an access was aborted (R191, R192). -/
inductive AbortReason where
  | translation
  | domain
  | permission
deriving DecidableEq, Repr, Inhabited

/-- What an abort carries (R192); `domain` is `none` when no valid descriptor was read. -/
structure Abort where
  reason : AbortReason
  level : Level
  va : Word
  domain : Option (BitVec 4)
deriving DecidableEq, Repr, Inhabited

/-- The placeholder `AbortStatus` (R27), held as a status word and an address word (log entry 19). -/
structure AbortStatus where
  status : Word
  address : Word
deriving DecidableEq, Repr, Inhabited

/-- The reason with which the permission check refuses (R119). -/
inductive PermReason where
  | domain
  | permission
deriving DecidableEq, Repr, Inhabited

/-- The answer of `P_PERM` (R119). -/
inductive PermAnswer where
  | allow
  | refuse (reason : PermReason)
deriving DecidableEq, Repr, Inhabited

/-- The abort reason a refusal of the check turns into (R119). -/
def PermReason.toAbort : PermReason → AbortReason
  | .domain => .domain
  | .permission => .permission

/-- What a second-level descriptor says (R161, R162, R176): unmapped, one of the three pages, or nothing the source
gives a meaning. -/
inductive L2Descriptor where
  | fault
  | large (base : BitVec 16) (ap0 ap1 ap2 ap3 : BitVec 2) (c b : BitVec 1)
  | small (base : BitVec 20) (ap0 ap1 ap2 ap3 : BitVec 2) (c b : BitVec 1)
  | tiny (base : BitVec 22) (ap : BitVec 2) (c b : BitVec 1)
  | refused
deriving DecidableEq, Repr, Inhabited

/-- Why a walk has no result (`WalkRefused`, R123, R173, U6). -/
inductive WalkRefusal where
  /-- `P_L2_WALK` is not instantiated (R123). -/
  | secondLevelOpen
  /-- A should-be-zero bit of a descriptor is set and `P_SBZ_NONZERO` is `refuse` (R173, U4). -/
  | sbzNonzero
  /-- A tiny-page descriptor in a coarse table (R168, U6). -/
  | tinyInCoarse
  /-- The instantiation of `P_L2_WALK` itself answers `WalkRefused` (R176). -/
  | secondLevelRefused
deriving DecidableEq, Repr, Inhabited

/-- The result of a walk (R163): a translation fault, an entry, or `WalkRefused`. -/
inductive WalkResult where
  | fault (level : Level) (domain : Option (BitVec 4))
  | entry (e : TlbEntry)
  | refused (why : WalkRefusal)
deriving DecidableEq, Repr, Inhabited

/-- What the processor asks of the MMU (R10, R94). -/
inductive Request where
  | access (kind : AccessKind) (va : Word) (priv : Priv)
  | writeM (b : BitVec 1)
  | writeTtbr (v : Word)
  | flush
  | lock (t : TlbName) (va : Word)
  | readAbortStatus
deriving DecidableEq, Repr, Inhabited

/-- What the environment can do to the machine: make a request, store into main memory (the `MemWrite` of
spec/00_scope.md section 6), or initialise the registers whose operation the source has lost (R221 step 3;
log entry 23). -/
inductive Input where
  | request (r : Request)
  | storeWord (pa w : Word)
  | storeByte (pa : Word) (b : Byte)
  | setDomainControl (v : Word)
  | setOtherControl (v : Word)
deriving DecidableEq, Repr, Inhabited

/-- The answer to a request (R110, R147): the access proceeds, a memory abort, the abort status, or (for an operation
that answers nothing) done. -/
inductive Response where
  | proceed (pa : Word) (c b : BitVec 1)
  | abort (a : Abort)
  | abortStatus (v : AbortStatus)
  | done
deriving DecidableEq, Repr, Inhabited

end Sys2Proof.Machine
end

