-- ==== Sys2Proof/Config.lean ====
section
/-! DEFINITION. What an implementation fixes (the parameters of spec/00_scope.md section 4) and the free values: constants
with no body, so that no proof can see what they are. -/

namespace Sys2Proof.Config

open Sys2Proof.Machine

/-- `P_ENDIAN` (R55): the byte order in which a 32-bit word lies in byte-addressed memory. -/
inductive Endian where
  | little
  | big
deriving DecidableEq, Repr, Inhabited

/-- `P_SBZ_NONZERO` (R173): what becomes of a descriptor whose should-be-zero bits are not zero. -/
inductive SbzTreatment where
  | refuse
  | ignore
deriving DecidableEq, Repr, Inhabited

/-- How one of the spec's open functions (`P_PERM`, `P_L2_WALK`, `P_ABORT_RECORD`) is given: not instantiated
(R123, R195), an uninterpreted function (D6, D7, D8), or the candidate of spec/93_implementation_defined.md. -/
inductive OpenFunction where
  | uninstantiated
  | uninterpreted
  | candidate
deriving DecidableEq, Repr, Inhabited

/-- The parameters of one machine (spec/00_scope.md section 4). `P_TLB_SPLIT` and `P_TLB_ENTRIES` are the shape of
`State.tlbs`; `P_SECTION_BIT4` is read by no rule; `P_TLB_VICTIM` is `victim` below. -/
structure Params where
  endian : Endian
  tlbCachesFaults : Bool
  flushRemovesLocked : Bool
  /-- `P_SBZ_NONZERO`: "default refuse" (R92, R173). -/
  sbzNonzero : SbzTreatment := .refuse
  tlbLockdown : Bool
  cache : Bool
  cacheWhenMmuOff : Bool
  perm : OpenFunction
  l2Walk : OpenFunction
  abortRecord : OpenFunction
deriving DecidableEq, Repr, Inhabited

/-! ## The machine at hand, and what reset leaves in it -/

/-- The parameters of the machine at hand that stay open (log entry 6). -/
opaque implementation : Params
/-- CP15[1] bits [31:1] after reset: `UNSPECIFIED` (R35, log entry 3). -/
opaque resetControlHigh : BitVec 31
/-- `TTBR` after reset: `UNSPECIFIED` (R35, log entry 3). -/
opaque resetTtbr : Word
/-- `AbortStatus` after reset: `UNSPECIFIED` (R35, log entry 3). -/
opaque resetAbortStatus : AbortStatus
/-- `DomainControl` after reset: `UNSPECIFIED` (R35, log entry 3). -/
opaque resetDomainControl : Word
/-- `OtherControl` after reset: `UNSPECIFIED` (R35, log entry 3). -/
opaque resetOtherControl : Word
/-- The TLBs after reset, their arrangement and sizes included: `UNSPECIFIED` (R35, R28, R29, log entries 3 and 7). -/
opaque resetTlbs : Tlbs
/-- The byte of main memory at an address nothing has been stored to since reset: `UNSPECIFIED` (R35, log entry 4). -/
opaque unwrittenByte : Word → Byte

/-! ## Free values drawn during a run; the argument is `State.draws` -/

/-- Which replaceable slot a fill takes (`P_TLB_VICTIM`, R116, log entry 8). -/
opaque victim : Nat → Nat
/-- Which of several matching slots an access uses (R124, log entry 9). -/
opaque hitChoice : Nat → Nat
/-- Whether a walk that ends in `L1.FAULT` leaves a fault mark ("may (not must)", R116, log entry 10). -/
opaque keepFaultMark : Nat → Bool
/-- `TTBR` bits [13:0] after a write with non-zero bits [13:0] (R142, U3, log entry 11). -/
opaque ttbrLow : Nat → BitVec 14
/-- `AbortStatus` after an abort when `P_ABORT_RECORD` is not instantiated (R195, log entry 17). -/
opaque unspecifiedAbortStatus : Nat → AbortStatus

/-! ## The open functions, uninterpreted -/

/-- An instantiation of `P_PERM` (R119, D6): the access-control field, domain, level, kind, privilege, `DomainControl` and
`OtherControl` give the answer, and for each privilege state "a region can be no-access, read-only or read/write". The
defaults of the fields only show that there is such a function; nothing uses them. -/
structure PermFunction where
  answer : BitVec 2 → BitVec 4 → Level → AccessKind → Priv → Word → Word → PermAnswer :=
    fun ap _ _ kind _ _ _ =>
      if ap = 0b00#2 then .refuse .permission else if ap = 0b01#2 ∧ kind = .write then .refuse .permission else .allow
  noAccess : ∀ priv, ∃ ap domain level dc oc, ∀ kind, ∃ reason,
      answer ap domain level kind priv dc oc = .refuse reason := by
    exact fun _ => ⟨0b00#2, 0#4, .sect, 0#32, 0#32, fun _ => ⟨.permission, rfl⟩⟩
  readOnly : ∀ priv, ∃ ap domain level dc oc, answer ap domain level .read priv dc oc = .allow ∧
      ∃ reason, answer ap domain level .write priv dc oc = .refuse reason := by
    exact fun _ => ⟨0b01#2, 0#4, .sect, 0#32, 0#32, rfl, .permission, rfl⟩
  readWrite : ∀ priv, ∃ ap domain level dc oc, answer ap domain level .read priv dc oc = .allow ∧
      answer ap domain level .write priv dc oc = .allow := by
    exact fun _ => ⟨0b10#2, 0#4, .sect, 0#32, 0#32, rfl, rfl⟩
deriving Inhabited

/-- `P_PERM` (R119, D6), any function with the one property it must have (log entry 12). -/
opaque perm : PermFunction
/-- `P_L2_WALK` (R176), first half: the word index (address bits [31:2]) of the second-level entry, from the table
kind, the first-level descriptor and the virtual address (log entry 14). -/
opaque l2Index : TableKind → Word → Word → BitVec 30
/-- `P_L2_WALK` (R176), second half: what the word fetched there says, the subpages' fields in address order wherever they
lie in it (N8, log entries 14 and 16). -/
opaque l2Decode : TableKind → Word → Word → Word → L2Descriptor
/-- `P_ABORT_RECORD` (R195, D8, log entry 17). -/
opaque abortRecord : AbortStatus → Abort → AccessKind → AbortStatus

/-! ## Corners the candidates themselves call unpredictable or leave without a value -/

/-- The answer of the G3 table for AP = 0b00 with S = R = 1 ("unpredictable", log entry 13). -/
opaque permUnpredictable : AccessKind → Priv → PermAnswer
/-- The domain field of the G8 status word for a fault found before a domain was read (log entry 18). -/
opaque statusDomainFiller : Abort → BitVec 4

end Sys2Proof.Config
end

