-- ==== Sys2Proof/Machine/State.lean ====
section
/-! DEFINITION. The state of the machine as plain data (spec/10_state.md R37), the reasons a step can stop, and the
state after reset (R34, R35). -/

namespace Sys2Proof.Machine

/-- Main memory (R32): the bytes that have been stored, at rising addresses. -/
abbrev Memory := List Host.Cell

/-- The machine: the spec's state (`m` to `mem`), the parameters it runs under, and the model's own fields. -/
structure State where
  /-- The parameters (spec/00_scope.md section 4); no step changes them. -/
  cfg : Config.Params
  /-- CP15[1] bit [0], the enable bit `M` (R25). -/
  m : BitVec 1
  /-- CP15[1] bits [31:1] (R25, R35): read by no rule. -/
  controlHigh : BitVec 31
  /-- CP15[2], the translation table base register (R26). -/
  ttbr : Word
  /-- The placeholder `AbortStatus` (R27). -/
  abortStatus : AbortStatus
  /-- The placeholder `DomainControl` (R27). -/
  domainControl : Word
  /-- The placeholder `OtherControl` (R27). -/
  otherControl : Word
  /-- The TLBs (R28, R29). -/
  tlbs : Tlbs
  /-- Main memory (R32). -/
  mem : Memory
  /-- Model: the virtual address a descriptor run alone belongs to. -/
  walkVa : Word
  /-- Model: the next step is the first-level fetch for `walkVa`. -/
  walkActive : Bool
  /-- Model: the result of the last descriptor run alone. -/
  walkResult : Option WalkResult
  /-- Model: what the environment has issued, oldest first. -/
  inputs : List Input
  /-- Model: the answer to the last request. -/
  response : Option Response
  /-- Model: the counter the free values of `Config` are applied to. -/
  draws : Nat
deriving DecidableEq, Repr

/-- The reasons the machine stops with a fault. A memory abort is none of them: it is an answer (R190). -/
inductive Fault where
  /-- Raised by `step` if the bytes at the fetch address did not decode. Every word is a first-level descriptor (R86),
  so that it is never raised. Safe. -/
  | undecodable
deriving DecidableEq, Repr

/-- The reasons an instruction has no meaning. -/
inductive Refusal where
  /-- An instruction without a meaning yet: raised by `exec` only. Safe. -/
  | notModelled (mnemonic : String)
  /-- `ACCESS` with `M` = 1 while `P_PERM` is not instantiated: "every enabled-MMU access is refused" (R123). Safe. -/
  | permissionCheckOpen
  /-- `ACCESS` or `TLB.LOCK` whose walk has no result (`WalkRefused`, R123, R173, U6). Safe. -/
  | walkRefused (why : WalkRefusal)
  /-- `TLB.LOCK` on a system without lockdown: its precondition `P_TLB_LOCKDOWN` (R146). Safe. -/
  | lockdownAbsent
  /-- `TLB.LOCK` with `M` = 0: its precondition `M == 1` (R146). Safe. -/
  | lockWhileDisabled
  /-- `TLB.LOCK` on a TLB the system does not have: its precondition (R146). Safe. -/
  | noSuchTlb
  /-- `TLB.LOCK` with every slot locked: "if none, the operation is refused" (R146). Safe. -/
  | noSlotToLock
deriving DecidableEq, Repr

/-- The state after reset of a machine with the given parameters: `M` is 0 (R34), every other piece of the spec's state
is `UNSPECIFIED` (R35) and so an opaque constant of `Config`; the model's own fields are empty (log entries 3, 4, 30). -/
def State.resetOf (cfg : Config.Params) : State where
  cfg := cfg
  m := 0
  controlHigh := Config.resetControlHigh
  ttbr := Config.resetTtbr
  abortStatus := Config.resetAbortStatus
  domainControl := Config.resetDomainControl
  otherControl := Config.resetOtherControl
  tlbs := Config.resetTlbs.map (fun slots => slots.map (Slot.legalOrUnused cfg.tlbCachesFaults))
  mem := []
  walkVa := 0
  walkActive := false
  walkResult := none
  inputs := []
  response := none
  draws := 0

/-- The machine right after reset (R34, R35): should-be-zero bits refused (the default of R92 and R173), little-endian
memory (log entry 5), the other parameters those of `Config.implementation` (log entry 6). -/
def State.reset : State :=
  State.resetOf { Config.implementation with endian := .little, sbzNonzero := .refuse }

end Sys2Proof.Machine
end

