-- ==== Sys2Proof/Machine/Flags.lean ====
section
/-! DEFINITION. The MMU has no flags or condition codes (spec/10_state.md R22). The bits it computes and outputs beside an
address are the attribute bits C and B (R60, R118, R121). -/

namespace Sys2Proof.Machine

/-- `P_TLB_SPLIT`: the system has separate instruction and data TLBs (R28). -/
def Tlbs.isSplit : Tlbs → Bool
  | .unified _ => false
  | .split _ _ => true

/-- `C_off` (R121): 1 exactly for an instruction fetch when the cache can be enabled with the MMU off and the TLBs are
split; DESIGN CHOICE of the spec (D19) in the "no effect" cells: 0 (log entry 24). -/
def cOff (p : Config.Params) (split : Bool) (kind : AccessKind) : BitVec 1 :=
  match kind with
  | .ifetch => if p.cacheWhenMmuOff && split then 1#1 else 0#1
  | .read => 0#1
  | .write => 0#1

/-- `B_off` (R121): 0 for data; for the cells "no effect" and "not stated" the spec's filler 0 (D19, log entry 24). -/
def bOff (_kind : AccessKind) : BitVec 1 := 0#1

/-- The attribute bits as the cache and write buffer see them (R60): without them "the bits are ignored". -/
def attributesSeen (p : Config.Params) (c b : BitVec 1) : Option (BitVec 1 × BitVec 1) :=
  if p.cache then some (c, b) else none

end Sys2Proof.Machine
end

