-- ==== Sys2Proof/Syntax.lean ====
section
/-! DEFINITION. The twelve rows of spec/opcode_table.json: four first-level descriptors with the fields of R87 to R90, and
eight operations the processor requests (R94). -/

namespace Sys2Proof

open Sys2Proof.Machine

/-- One constructor per row of spec/opcode_table.json. -/
inductive Instr where
  /-- `L1.FAULT` (R87): bits [31:2] ignored. -/
  | l1Fault (ignored : BitVec 30)
  /-- `L1.COARSE` (R88): base [31:10], SBZ [9], domain [8:5], IMP [4:2]. -/
  | l1Coarse (base : BitVec 22) (sbz : BitVec 1) (domain : BitVec 4) (imp : BitVec 3)
  /-- `L1.SECTION` (R89): base [31:20], SBZ [19:12], AP [11:10], SBZ [9], domain [8:5], IMP [4], C [3], B [2]. -/
  | l1Section (base : BitVec 12) (sbzHi : BitVec 8) (ap : BitVec 2) (sbzLo : BitVec 1) (domain : BitVec 4)
      (imp c b : BitVec 1)
  /-- `L1.FINE` (R90): base [31:12], SBZ [11:9], domain [8:5], IMP [4:2]. -/
  | l1Fine (base : BitVec 20) (sbz : BitVec 3) (domain : BitVec 4) (imp : BitVec 3)
  /-- `ACCESS` of kind `ifetch` (R110). -/
  | accessIfetch (va : Word) (priv : Priv)
  /-- `ACCESS` of kind `read` (R110). -/
  | accessRead (va : Word) (priv : Priv)
  /-- `ACCESS` of kind `write` (R110). -/
  | accessWrite (va : Word) (priv : Priv)
  /-- `CP15.WRITE_M(b)` (R140). -/
  | cp15WriteM (b : BitVec 1)
  /-- `CP15.WRITE_TTBR(v)` (R142). -/
  | cp15WriteTtbr (v : Word)
  /-- `TLB.FLUSH` (R144). -/
  | tlbFlush
  /-- `TLB.LOCK(t, va)` (R146). -/
  | tlbLock (t : TlbName) (va : Word)
  /-- `CP15.READ_ABORT_STATUS` (R147). -/
  | cp15ReadAbortStatus
deriving DecidableEq, Repr, Inhabited

end Sys2Proof
end

