-- ==== Sys2Proof/WellFormed.lean ====
section
/-! DEFINITION. Well-formed instructions: software's duty to write every should-be-zero field as zero
(spec/00_scope.md R8, spec/70_reset_and_hazards.md R227). All other limits are in the widths of the fields. The hardware
does not check it: an ill-formed descriptor still decodes (R86), and R92 says what becomes of it. -/

namespace Sys2Proof

/-- Every should-be-zero field is zero (R227). -/
def Instr.wellFormed : Instr → Bool
  | .l1Fault _ => true
  | .l1Coarse _ sbz _ _ => sbz == 0
  | .l1Section _ sbzHi _ sbzLo _ _ _ _ => sbzHi == 0 && sbzLo == 0
  | .l1Fine _ sbz _ _ => sbz == 0
  | .accessIfetch _ _ => true
  | .accessRead _ _ => true
  | .accessWrite _ _ => true
  | .cp15WriteM _ => true
  | .cp15WriteTtbr v => v.extractLsb' 0 14 == 0
  | .tlbFlush => true
  | .tlbLock _ _ => true
  | .cp15ReadAbortStatus => true

end Sys2Proof
end

