-- ==== Sys2Proof/Decode.lean ====
section
/-! DEFINITION. The decoder of first-level descriptors (R85 to R90), the selection of the requests that have no bit pattern
(R94), byte order (R55), and after them the encoder. -/

namespace Sys2Proof

open Sys2Proof.Machine

/-! ## Byte order (R55) -/

/-- The 32-bit word that four bytes at rising addresses make (R55). -/
def wordOfBytes (e : Config.Endian) (b0 b1 b2 b3 : Byte) : Word :=
  match e with
  | .little => b3 ++ b2 ++ b1 ++ b0
  | .big => b0 ++ b1 ++ b2 ++ b3

/-- The four bytes of a word, at rising addresses (R55). -/
def bytesOfWord (e : Config.Endian) (w : Word) : List Byte :=
  match e with
  | .little => [w.extractLsb' 0 8, w.extractLsb' 8 8, w.extractLsb' 16 8, w.extractLsb' 24 8]
  | .big => [w.extractLsb' 24 8, w.extractLsb' 16 8, w.extractLsb' 8 8, w.extractLsb' 0 8]

/-! ## First-level descriptors (R85 to R90) -/

/-- A decoded first-level descriptor: the fields of R87 to R90. -/
inductive Descriptor where
  | fault (ignored : BitVec 30)
  | coarse (base : BitVec 22) (sbz : BitVec 1) (domain : BitVec 4) (imp : BitVec 3)
  | sect (base : BitVec 12) (sbzHi : BitVec 8) (ap : BitVec 2) (sbzLo : BitVec 1) (domain : BitVec 4)
      (imp c b : BitVec 1)
  | fine (base : BitVec 20) (sbz : BitVec 3) (domain : BitVec 4) (imp : BitVec 3)
deriving DecidableEq, Repr, Inhabited

/-- The kind bits [1:0] (R86). -/
def kindBits (d : Word) : BitVec 2 := d.extractLsb' 0 2

/-- Decode a first-level descriptor by its bits [1:0] and nothing else (R86), with the fields of R87 to R90. -/
def decodeDescriptor (d : Word) : Descriptor :=
  if kindBits d = 0b00#2 then
    .fault (d.extractLsb' 2 30)
  else if kindBits d = 0b01#2 then
    .coarse (d.extractLsb' 10 22) (d.extractLsb' 9 1) (d.extractLsb' 5 4) (d.extractLsb' 2 3)
  else if kindBits d = 0b10#2 then
    .sect (d.extractLsb' 20 12) (d.extractLsb' 12 8) (d.extractLsb' 10 2) (d.extractLsb' 9 1)
      (d.extractLsb' 5 4) (d.extractLsb' 4 1) (d.extractLsb' 3 1) (d.extractLsb' 2 1)
  else
    .fine (d.extractLsb' 12 20) (d.extractLsb' 9 3) (d.extractLsb' 5 4) (d.extractLsb' 2 3)

/-- The opcode-table row a decoded descriptor is. -/
def Descriptor.toInstr : Descriptor → Instr
  | .fault ignored => .l1Fault ignored
  | .coarse base sbz domain imp => .l1Coarse base sbz domain imp
  | .sect base sbzHi ap sbzLo domain imp c b => .l1Section base sbzHi ap sbzLo domain imp c b
  | .fine base sbz domain imp => .l1Fine base sbz domain imp

/-- Why bytes give no descriptor. There is no illegal first-level descriptor (R86): only too few bytes. -/
inductive DecodeError where
  | truncated (available : Nat)
deriving DecidableEq, Repr, Inhabited

/-- Decode the first four of the bytes at rising addresses as a first-level descriptor, and give back the rest
(R54, R80). -/
def decodeBytes (e : Config.Endian) : List Byte → Except DecodeError (Instr × List Byte)
  | b0 :: b1 :: b2 :: b3 :: rest => .ok ((decodeDescriptor (wordOfBytes e b0 b1 b2 b3)).toInstr, rest)
  | bs => .error (.truncated bs.length)

/-- One descriptor row of the opcode table: the word matches when `w AND mask = pattern` (R86, R96). -/
structure TableRow where
  mnemonic : String
  mask : Word
  pattern : Word
deriving DecidableEq, Repr

/-- The four descriptor rows with their match and mask values (R86). -/
def descriptorRows : List TableRow :=
  [⟨"L1.FAULT", 0x00000003#32, 0x00000000#32⟩,
   ⟨"L1.COARSE", 0x00000003#32, 0x00000001#32⟩,
   ⟨"L1.SECTION", 0x00000003#32, 0x00000002#32⟩,
   ⟨"L1.FINE", 0x00000003#32, 0x00000003#32⟩]

/-- The word matches the row. -/
def TableRow.hit (r : TableRow) (w : Word) : Bool := (w &&& r.mask) == r.pattern

/-- The instruction the decoder reads from a table row's bits. A descriptor is exactly 32 bits (R80); the operations of
R94 have no bit pattern, so that any other number of bits is no instruction. -/
def decodeTableWord (nbits w : Nat) : Option Instr :=
  if nbits = 32 then
    match decodeBytes .little (bytesOfWord .little (BitVec.ofNat 32 w)) with
    | .ok (i, _) => some i
    | .error _ => none
  else none

/-! ## Requests: selected by name and by register number (R94) -/

/-- The instruction a request of the processor is. -/
def requestInstr : Request → Instr
  | .access .ifetch va priv => .accessIfetch va priv
  | .access .read va priv => .accessRead va priv
  | .access .write va priv => .accessWrite va priv
  | .writeM b => .cp15WriteM b
  | .writeTtbr v => .cp15WriteTtbr v
  | .flush => .tlbFlush
  | .lock t va => .tlbLock t va
  | .readAbortStatus => .cp15ReadAbortStatus

/-- A write of coprocessor register `(coprocessor, register)` selects: register 1 of coprocessor 15 the write of `M`
(bit 0 of the value), register 2 the write of `TTBR` (R94); the source describes no other (N14). -/
def selectCoprocessorWrite (coprocessor register : Nat) (v : Word) : Option Request :=
  if coprocessor = 15 ∧ register = 1 then some (.writeM (v.extractLsb' 0 1))
  else if coprocessor = 15 ∧ register = 2 then some (.writeTtbr v)
  else none

/-! ## The encoder -/

/-- `d = IGN[31:2] : 0b00` (R87). -/
def faultWord (ignored : BitVec 30) : Word := ignored ++ 0b00#2

/-- `d = coarse_base[31:10] : SBZ[9] : domain[8:5] : IMP[4:2] : 0b01` (R88). -/
def coarseWord (base : BitVec 22) (sbz : BitVec 1) (domain : BitVec 4) (imp : BitVec 3) : Word :=
  base ++ sbz ++ domain ++ imp ++ 0b01#2

/-- `d = section_base[31:20] : SBZ[19:12] : AP[11:10] : SBZ[9] : domain[8:5] : IMP[4] : C[3] : B[2] : 0b10` (R89). -/
def sectionWord (base : BitVec 12) (sbzHi : BitVec 8) (ap : BitVec 2) (sbzLo : BitVec 1) (domain : BitVec 4)
    (imp c b : BitVec 1) : Word :=
  base ++ sbzHi ++ ap ++ sbzLo ++ domain ++ imp ++ c ++ b ++ 0b10#2

/-- `d = fine_base[31:12] : SBZ[11:9] : domain[8:5] : IMP[4:2] : 0b11` (R90). -/
def fineWord (base : BitVec 20) (sbz : BitVec 3) (domain : BitVec 4) (imp : BitVec 3) : Word :=
  base ++ sbz ++ domain ++ imp ++ 0b11#2

/-- The word of a descriptor row; `none` for the operations, which have no bit pattern (R94). -/
def encode : Instr → Option Word
  | .l1Fault ignored => some (faultWord ignored)
  | .l1Coarse base sbz domain imp => some (coarseWord base sbz domain imp)
  | .l1Section base sbzHi ap sbzLo domain imp c b => some (sectionWord base sbzHi ap sbzLo domain imp c b)
  | .l1Fine base sbz domain imp => some (fineWord base sbz domain imp)
  | .accessIfetch _ _ => none
  | .accessRead _ _ => none
  | .accessWrite _ _ => none
  | .cp15WriteM _ => none
  | .cp15WriteTtbr _ => none
  | .tlbFlush => none
  | .tlbLock _ _ => none
  | .cp15ReadAbortStatus => none

end Sys2Proof
end

