-- ==== Sys2Proof/Machine/Operands.lean ====
section
/-! DEFINITION. Operand assembly (spec/30_encoding.md R95): the addresses the MMU forms and the TLB entries it makes from
descriptors. Every one is a concatenation of fields (R7). -/

namespace Sys2Proof.Machine

/-- The address of the first-level descriptor, `TTBR[31:14] : va[31:20] : 0b00` (R84, R164). -/
def l1Address (ttbr va : Word) : Word :=
  ttbr.extractLsb' 14 18 ++ va.extractLsb' 20 12 ++ 0b00#2

/-- The virtual address with the offset inside its region cleared (R170, R176: `va_base`). -/
def regionBase (size : RegionSize) (va : Word) : Word :=
  match size with
  | .sect => va.extractLsb' 20 12 ++ 0#20
  | .large => va.extractLsb' 16 16 ++ 0#16
  | .small => va.extractLsb' 12 20 ++ 0#12
  | .tiny => va.extractLsb' 10 22 ++ 0#10

/-- `va` lies in the region of that size at `vaBase`: `va[31:k] == va_base[31:k]` (R30). -/
def inRegion (size : RegionSize) (vaBase va : Word) : Bool :=
  (va >>> size.log2) == (vaBase >>> size.log2)

/-- The slot answers for `va` (R114): a used entry whose region holds it (R30), or a fault mark for its megabyte. -/
def Slot.covers (va : Word) : Slot → Bool
  | .unused => false
  | .entry e => inRegion e.size e.vaBase va
  | .faultMark vaBase => inRegion .sect vaBase va

/-- `pa = pa_base[31:k] : va[k-1:0]` (R120; for a section R171). -/
def physicalAddress (e : TlbEntry) (va : Word) : Word :=
  match e.size with
  | .sect => e.paBase.extractLsb' 20 12 ++ va.extractLsb' 0 20
  | .large => e.paBase.extractLsb' 16 16 ++ va.extractLsb' 0 16
  | .small => e.paBase.extractLsb' 12 20 ++ va.extractLsb' 0 12
  | .tiny => e.paBase.extractLsb' 10 22 ++ va.extractLsb' 0 10

/-- The entry a section descriptor yields for `va` (R170). -/
def sectionEntry (base : BitVec 12) (ap : BitVec 2) (domain : BitVec 4) (imp c b : BitVec 1) (va : Word) : TlbEntry where
  vaBase := regionBase .sect va
  size := .sect
  paBase := base ++ 0#20
  ap := .whole ap
  domain := domain
  c := c
  b := b
  imp := imp.setWidth 3
  level := .sect
  locked := false

/-- The result of a page walk from what the second-level descriptor says (R176): level page, the first-level
descriptor's domain, `va_base` the address with the offset cleared; no tiny page from a coarse table (U6). -/
def pageResult (kind : TableKind) (domain : BitVec 4) (imp : BitVec 3) (va : Word) : L2Descriptor → WalkResult
  | .fault => .fault .page (some domain)
  | .large base ap0 ap1 ap2 ap3 c b =>
    .entry { vaBase := regionBase .large va, size := .large, paBase := base ++ 0#16,
             ap := .perSubpage ap0 ap1 ap2 ap3, domain, c, b, imp, level := .page, locked := false }
  | .small base ap0 ap1 ap2 ap3 c b =>
    .entry { vaBase := regionBase .small va, size := .small, paBase := base ++ 0#12,
             ap := .perSubpage ap0 ap1 ap2 ap3, domain, c, b, imp, level := .page, locked := false }
  | .tiny base ap c b =>
    match kind with
    | .coarse => .refused .tinyInCoarse
    | .fine =>
      .entry { vaBase := regionBase .tiny va, size := .tiny, paBase := base ++ 0#10,
               ap := .whole ap, domain, c, b, imp, level := .page, locked := false }
  | .refused => .refused .secondLevelRefused

/-- PRESUMED (G5): the address of the second-level descriptor, from the table base in the first-level descriptor
`d` (log entry 15). -/
def candidateL2Address (kind : TableKind) (d va : Word) : Word :=
  match kind with
  | .coarse => d.extractLsb' 10 22 ++ va.extractLsb' 12 8 ++ 0b00#2
  | .fine => d.extractLsb' 12 20 ++ va.extractLsb' 10 10 ++ 0b00#2

/-- PRESUMED (G6): what a second-level descriptor word says (log entry 15). -/
def candidateL2Decode (d2 : Word) : L2Descriptor :=
  if kindBits d2 = 0b00#2 then .fault
  else if kindBits d2 = 0b01#2 then
    .large (d2.extractLsb' 16 16) (d2.extractLsb' 4 2) (d2.extractLsb' 6 2) (d2.extractLsb' 8 2) (d2.extractLsb' 10 2)
      (d2.extractLsb' 3 1) (d2.extractLsb' 2 1)
  else if kindBits d2 = 0b10#2 then
    .small (d2.extractLsb' 12 20) (d2.extractLsb' 4 2) (d2.extractLsb' 6 2) (d2.extractLsb' 8 2) (d2.extractLsb' 10 2)
      (d2.extractLsb' 3 1) (d2.extractLsb' 2 1)
  else
    .tiny (d2.extractLsb' 10 22) (d2.extractLsb' 4 2) (d2.extractLsb' 3 1) (d2.extractLsb' 2 1)

/-- PRESUMED (G6): a should-be-zero bit of a second-level descriptor is set: large [15:12], tiny [9:6]
(log entries 15 and 20). -/
def candidateL2SbzSet (d2 : Word) : Bool :=
  (kindBits d2 == 0b01#2 && d2.extractLsb' 12 4 != 0#4) || (kindBits d2 == 0b11#2 && d2.extractLsb' 6 4 != 0#4)

/-- The number, in address order, of the subpage that contains `va`: a small page is divided into 1 KB subpages, a large
page into 16 KB subpages, a section and a tiny page not at all (R161, log entry 16). -/
def subpageNumber (size : RegionSize) (va : Word) : BitVec 2 :=
  match size with
  | .large => va.extractLsb' 14 2
  | .small => va.extractLsb' 10 2
  | .sect => 0#2
  | .tiny => 0#2

/-- The field of a subpage, by its number. -/
def AccessBits.field : AccessBits → BitVec 2 → BitVec 2
  | .whole ap, _ => ap
  | .perSubpage ap0 ap1 ap2 ap3, n =>
    if n = 0#2 then ap0 else if n = 1#2 then ap1 else if n = 2#2 then ap2 else ap3

/-- `ap_for(e, va)` (R119): the entry's single field, or the field of the subpage that contains `va` (R161). -/
def apFor (e : TlbEntry) (va : Word) : BitVec 2 := e.ap.field (subpageNumber e.size va)

/-- What the physical address of an allowed access is used for (R61, R120). -/
inductive AddressUse where
  | mainMemoryAccess (pa : Word)
  | lineFetch (pa : Word)
  | ignored
deriving DecidableEq, Repr

/-- R61: without a cache the address of the main-memory access; with one, the line-fetch address on a cache miss, and
ignored on a hit. Whether the cache hits is the cache's affair (R33). -/
def addressUse (cache cacheHit : Bool) (pa : Word) : AddressUse :=
  if cache then (if cacheHit then .ignored else .lineFetch pa) else .mainMemoryAccess pa

end Sys2Proof.Machine
end

