-- ==== Sys2Proof/Machine/Ops.lean ====
section
/-! DEFINITION. The operations the meanings share: main memory, the walk, the TLBs, the permission check and the memory
abort. -/

namespace Sys2Proof.Machine

/-! ## Main memory (R32, R54, R55) -/

/-- The canonical form of memory: addresses strictly rising and below 2^32 (log entry 4). -/
abbrev Memory.wf (mem : Memory) : Prop :=
  mem.Pairwise (fun x y => x.1 < y.1) ∧ ∀ x ∈ mem, x.1 < 2 ^ 32

/-- The byte stored at an address, if one has been. -/
def Memory.lookup : Memory → Nat → Option Byte
  | [], _ => none
  | (k, v) :: rest, a => if k = a then some v else Memory.lookup rest a

/-- Store a byte, keeping the addresses rising. -/
def Memory.insert : Memory → Nat → Byte → Memory
  | [], a, v => [(a, v)]
  | (k, w) :: rest, a, v =>
    if a < k then (a, v) :: (k, w) :: rest
    else if a = k then (a, v) :: rest
    else (k, w) :: Memory.insert rest a v

/-- The byte of main memory at a physical address; one nothing has been stored to is `UNSPECIFIED` (R35, log entry 4). -/
def byteAt (mem : Memory) (a : Word) : Byte :=
  (Memory.lookup mem a.toNat).getD (Config.unwrittenByte a)

/-- `MemWrite(addr, 1, b)`. -/
def storeByte (mem : Memory) (a : Word) (b : Byte) : Memory :=
  Memory.insert mem a.toNat b

/-- The four bytes at `a` to `a + 3`. -/
def fetchBytes (mem : Memory) (a : Word) : List Byte :=
  [byteAt mem a, byteAt mem (a + 1), byteAt mem (a + 2), byteAt mem (a + 3)]

/-- `MemRead(addr, 4)`: one indivisible 32-bit read (R54), in the byte order `P_ENDIAN` (R55). -/
def readWord (e : Config.Endian) (mem : Memory) (a : Word) : Word :=
  wordOfBytes e (byteAt mem a) (byteAt mem (a + 1)) (byteAt mem (a + 2)) (byteAt mem (a + 3))

/-- Store bytes at rising addresses. -/
def storeBytes (mem : Memory) (a : Word) : List Byte → Memory
  | [] => mem
  | b :: rest => storeBytes (storeByte mem a b) (a + 1) rest

/-- `MemWrite(addr, 4, w)`, in the byte order `P_ENDIAN` (R55). -/
def writeWord (e : Config.Endian) (mem : Memory) (a w : Word) : Memory :=
  storeBytes mem a (bytesOfWord e w)

/-! ## The walk (R163) -/

/-- A set should-be-zero bit makes the machine refuse the descriptor (R92, R173, U4). -/
def sbzRefused (p : Config.Params) (sbzSet : Bool) : Bool :=
  sbzSet && p.sbzNonzero == .refuse

/-- `P_L2_WALK(kind, d, va, Mem)` (R176): at most one more 32-bit read, at a word-aligned address (R56, R162). `domain`
and `imp` are those of the first-level descriptor `d`. -/
def secondLevelWalk (p : Config.Params) (mem : Memory) (kind : TableKind) (d : Word) (domain : BitVec 4)
    (imp : BitVec 3) (va : Word) : WalkResult :=
  match p.l2Walk with
  | .uninstantiated => .refused .secondLevelOpen
  | .uninterpreted =>
    pageResult kind domain imp va
      (Config.l2Decode kind d va (readWord p.endian mem (Config.l2Index kind d va ++ 0b00#2)))
  | .candidate =>
    if sbzRefused p (candidateL2SbzSet (readWord p.endian mem (candidateL2Address kind d va))) then .refused .sbzNonzero
    else pageResult kind domain imp va (candidateL2Decode (readWord p.endian mem (candidateL2Address kind d va)))

/-- `L1.FAULT` (R166): a translation fault at section level, nothing of bits [31:2] read. -/
def walkFault : WalkResult := .fault .sect none

/-- `L1.SECTION` (R167, R170, R173). -/
def walkSection (p : Config.Params) (base : BitVec 12) (sbzHi : BitVec 8) (ap : BitVec 2) (sbzLo : BitVec 1)
    (domain : BitVec 4) (imp c b : BitVec 1) (va : Word) : WalkResult :=
  if sbzRefused p (sbzHi != 0#8 || sbzLo != 0#1) then .refused .sbzNonzero
  else .entry (sectionEntry base ap domain imp c b va)

/-- `L1.COARSE` (R168). -/
def walkCoarse (p : Config.Params) (mem : Memory) (base : BitVec 22) (sbz : BitVec 1) (domain : BitVec 4)
    (imp : BitVec 3) (va : Word) : WalkResult :=
  if sbzRefused p (sbz != 0#1) then .refused .sbzNonzero
  else secondLevelWalk p mem .coarse (coarseWord base sbz domain imp) domain imp va

/-- `L1.FINE` (R169). -/
def walkFine (p : Config.Params) (mem : Memory) (base : BitVec 20) (sbz : BitVec 3) (domain : BitVec 4)
    (imp : BitVec 3) (va : Word) : WalkResult :=
  if sbzRefused p (sbz != 0#3) then .refused .sbzNonzero
  else secondLevelWalk p mem .fine (fineWord base sbz domain imp) domain imp va

/-- What a decoded first-level descriptor gives for `va` (R163). -/
def descriptorResult (p : Config.Params) (mem : Memory) (va : Word) : Descriptor → WalkResult
  | .fault _ => walkFault
  | .coarse base sbz domain imp => walkCoarse p mem base sbz domain imp va
  | .sect base sbzHi ap sbzLo domain imp c b => walkSection p base sbzHi ap sbzLo domain imp c b va
  | .fine base sbz domain imp => walkFine p mem base sbz domain imp va

/-- `Walk(va)` (R163): fetch the first-level descriptor (R164) from main memory as it is (R165), decode it (R86); a walk
writes nothing. -/
def tableWalk (s : State) (va : Word) : WalkResult :=
  descriptorResult s.cfg s.mem va (decodeDescriptor (readWord s.cfg.endian s.mem (l1Address s.ttbr va)))

/-! ## The TLBs (R28, R29, R113 to R117) -/

/-- The TLB an access of this kind uses (R113). -/
def Tlbs.nameFor (t : Tlbs) (kind : AccessKind) : TlbName :=
  match t, kind with
  | .unified _, _ => .unified
  | .split _ _, .ifetch => .instruction
  | .split _ _, .read => .data
  | .split _ _, .write => .data

/-- The slots of a TLB of the system; a TLB it does not have has none. -/
def Tlbs.slots : Tlbs → TlbName → List Slot
  | .unified u, .unified => u
  | .split i _, .instruction => i
  | .split _ d, .data => d
  | .unified _, .instruction => []
  | .unified _, .data => []
  | .split _ _, .unified => []

/-- The named TLB is a TLB of the system (R28, R146). -/
def Tlbs.has : Tlbs → TlbName → Bool
  | .unified _, .unified => true
  | .split _ _, .instruction => true
  | .split _ _, .data => true
  | .unified _, .instruction => false
  | .unified _, .data => false
  | .split _ _, .unified => false

/-- The TLBs with the slots of one of them replaced; the other TLB is not touched (R113). -/
def Tlbs.withSlots : Tlbs → TlbName → List Slot → Tlbs
  | .unified _, .unified, x => .unified x
  | .split _ d, .instruction, x => .split x d
  | .split i _, .data, x => .split i x
  | .unified u, .instruction, _ => .unified u
  | .unified u, .data, _ => .unified u
  | .split i d, .unified, _ => .split i d

/-- The slot holds an entry with `locked == true`; a fault mark is never locked (R29). -/
def Slot.isLocked : Slot → Bool
  | .unused => false
  | .entry e => e.locked
  | .faultMark _ => false

/-- The used slots of a TLB that match `va` (R114, R122): `hits`. -/
def hits (slots : List Slot) (va : Word) : List Slot :=
  slots.filter (Slot.covers va)

/-- The numbers of the slots a fill may take: unused or not locked (R116). -/
def replaceable (slots : List Slot) : List Nat :=
  (List.range slots.length).filter (fun i => !(slots.getD i .unused).isLocked)

/-- One member of a list by a free value: `choose x in S`. The only member when there is one. -/
def pick {α : Type} (n : Nat) : List α → Option α
  | [] => none
  | [x] => some x
  | x :: y :: rest => (x :: y :: rest)[n % (rest.length + 2)]?

/-- Put `x` in a replaceable slot chosen by the free value `n`; with none, keep nothing (R116, D18). -/
def place (n : Nat) (slots : List Slot) (x : Slot) : List Slot :=
  match pick n (replaceable slots) with
  | none => slots
  | some i => slots.set i x

/-- Fill the TLB an access of this kind uses (R113, R116). -/
def fillTlb (kind : AccessKind) (x : Slot) (s : State) : State :=
  { s with tlbs := s.tlbs.withSlots (s.tlbs.nameFor kind)
                     (place (Config.victim s.draws) (s.tlbs.slots (s.tlbs.nameFor kind)) x) }

/-- After a walk that ended in a translation fault (R116): a fault mark for the megabyte may be kept, if the parameter
allows and the first-level descriptor itself was the fault. -/
def keepFault (kind : AccessKind) (level : Level) (va : Word) (s : State) : State :=
  match level with
  | .sect =>
    if s.cfg.tlbCachesFaults && Config.keepFaultMark s.draws then fillTlb kind (.faultMark (regionBase .sect va)) s else s
  | .page => s

/-- Remove from a TLB what `TLB.FLUSH` removes (R144, R145). -/
def flushSlots (removesLocked : Bool) (slots : List Slot) : List Slot :=
  slots.map (fun x => if x.isLocked && !removesLocked then x else .unused)

/-! ## The permission check (R119) -/

/-- What an access-control field gives in the G3 table. -/
inductive AccessRight where
  | noAccess
  | readOnly
  | readWrite
  | unpredictable
deriving DecidableEq, Repr

/-- PRESUMED (G3): the access-permission table, from AP, S = `OtherControl` bit 8, R = bit 9 and the privilege
(log entry 13). -/
def candidateRight (ap : BitVec 2) (sBit rBit : BitVec 1) (priv : Priv) : AccessRight :=
  if ap = 0b00#2 then
    if sBit = 0#1 then
      if rBit = 0#1 then .noAccess else .readOnly
    else if rBit = 0#1 then
      match priv with
      | .privileged => .readOnly
      | .user => .noAccess
    else .unpredictable
  else if ap = 0b01#2 then
    match priv with
    | .privileged => .readWrite
    | .user => .noAccess
  else if ap = 0b10#2 then
    match priv with
    | .privileged => .readWrite
    | .user => .readOnly
  else .readWrite

/-- PRESUMED (G4): the 2-bit field of a domain, `DomainControl[2n+1:2n]` (log entry 13). -/
def domainField (dacr : Word) (domain : BitVec 4) : BitVec 2 :=
  dacr.extractLsb' (2 * domain.toNat) 2

/-- PRESUMED (G3, G4): the candidate `P_PERM`; an instruction fetch needs read permission (log entry 13). -/
def candidatePermission (ap : BitVec 2) (domain : BitVec 4) (kind : AccessKind) (priv : Priv)
    (domainControl otherControl : Word) : PermAnswer :=
  if domainField domainControl domain = 0b00#2 then .refuse .domain
  else if domainField domainControl domain = 0b10#2 then .refuse .domain
  else if domainField domainControl domain = 0b11#2 then .allow
  else
    match candidateRight ap (otherControl.extractLsb' 8 1) (otherControl.extractLsb' 9 1) priv with
    | .noAccess => .refuse .permission
    | .readOnly =>
      match kind with
      | .write => .refuse .permission
      | .read => .allow
      | .ifetch => .allow
    | .readWrite => .allow
    | .unpredictable => Config.permUnpredictable kind priv

/-- `P_PERM(ap, domain, level, kind, priv, DomainControl, OtherControl)` (R119). Not consulted while it is not
instantiated: the access is refused before (R123). -/
def permission (p : Config.Params) (ap : BitVec 2) (domain : BitVec 4) (level : Level) (kind : AccessKind) (priv : Priv)
    (domainControl otherControl : Word) : PermAnswer :=
  match p.perm with
  | .candidate => candidatePermission ap domain kind priv domainControl otherControl
  | .uninterpreted => Config.perm.answer ap domain level kind priv domainControl otherControl
  | .uninstantiated => Config.perm.answer ap domain level kind priv domainControl otherControl

/-- The check of an access on a TLB entry, with the inputs R119 names. -/
def checkEntry (s : State) (kind : AccessKind) (va : Word) (priv : Priv) (e : TlbEntry) : PermAnswer :=
  permission s.cfg (apFor e va) e.domain e.level kind priv s.domainControl s.otherControl

/-! ## Answers, and the memory abort (R190 to R195) -/

/-- Give the processor an answer. -/
def answer (r : Response) (s : State) : State := { s with response := some r }

/-- Count one use of the free values. -/
def drawn (s : State) : State := { s with draws := s.draws + 1 }

/-- PRESUMED (G7): the 4-bit status code of an abort (log entry 18). -/
def candidateStatusCode (reason : AbortReason) (level : Level) : BitVec 4 :=
  match reason, level with
  | .translation, .sect => 0b0101#4
  | .translation, .page => 0b0111#4
  | .domain, .sect => 0b1001#4
  | .domain, .page => 0b1011#4
  | .permission, .sect => 0b1101#4
  | .permission, .page => 0b1111#4

/-- PRESUMED (G8): status code in [3:0], domain in [7:4], the rest zero; the fault address; an abort on an instruction
fetch updates neither (log entry 18). -/
def candidateAbortRecord (old : AbortStatus) (a : Abort) (kind : AccessKind) : AbortStatus :=
  match kind with
  | .ifetch => old
  | .read | .write =>
    { status := 0#24 ++ a.domain.getD (Config.statusDomainFiller a) ++ candidateStatusCode a.reason a.level
      address := a.va }

/-- `P_ABORT_RECORD(AbortStatus, abort, kind)` (R195); not instantiated, `AbortStatus` is then `UNSPECIFIED`. -/
def recordAbort (s : State) (a : Abort) (kind : AccessKind) : AbortStatus :=
  match s.cfg.abortRecord with
  | .candidate => candidateAbortRecord s.abortStatus a kind
  | .uninterpreted => Config.abortRecord s.abortStatus a kind
  | .uninstantiated => Config.unspecifiedAbortStatus s.draws

/-- `raise Abort(reason, level, va, domain)` (R190, R192, R195): record it and signal it to the processor; the access does
not proceed. There is nothing a return from it restores: trap entry and return are the processor's (R197). -/
def raiseAbort (a : Abort) (kind : AccessKind) (s : State) : State :=
  { s with abortStatus := recordAbort s a kind, response := some (.abort a) }

/-! ## `ACCESS` (R110 to R124) -/

/-- `ACCESS` with `M` = 0 (R112, R121): the address unchanged, nothing checked, nothing looked up or filled. -/
def accessOff (kind : AccessKind) (va : Word) (s : State) : State :=
  answer (.proceed va (cOff s.cfg s.tlbs.isSplit kind) (bOff kind)) s

/-- The use of the entry obtained (R118, R119, R120): the check first, then the address and the attribute bits. -/
def finishAccess (kind : AccessKind) (va : Word) (priv : Priv) (e : TlbEntry) (s : State) : State :=
  match checkEntry s kind va priv e with
  | .refuse reason => raiseAbort ⟨reason.toAbort, e.level, va, some e.domain⟩ kind s
  | .allow => answer (.proceed (physicalAddress e va) e.c e.b) s

/-- The miss of an access (R115, R116, R122): walk, fill before the check, then use the entry; or the translation fault. -/
def accessMiss (kind : AccessKind) (va : Word) (priv : Priv) (s : State) : Host.Outcome State Fault Refusal :=
  match tableWalk s va with
  | .fault level domain => .next (drawn (raiseAbort ⟨.translation, level, va, domain⟩ kind (keepFault kind level va s)))
  | .entry e => .next (drawn (finishAccess kind va priv e (fillTlb kind (.entry e) s)))
  | .refused why => .refused (.walkRefused why)

/-- `ACCESS` with `M` = 1 (R113 to R120, R122): refused while `P_PERM` is not instantiated (R123); else any one of the
matching slots (R124), or the miss. -/
def accessOn (kind : AccessKind) (va : Word) (priv : Priv) (s : State) : Host.Outcome State Fault Refusal :=
  if s.cfg.perm = .uninstantiated then .refused .permissionCheckOpen
  else
    match pick (Config.hitChoice s.draws) (hits (s.tlbs.slots (s.tlbs.nameFor kind)) va) with
    | some (.entry e) => .next (drawn (finishAccess kind va priv e s))
    | some (.faultMark _) => .next (drawn (raiseAbort ⟨.translation, .sect, va, none⟩ kind s))
    | some .unused => accessMiss kind va priv s
    | none => accessMiss kind va priv s

/-- `ACCESS(kind, va, priv)` (R111, R122): `M` is read first. -/
def access (kind : AccessKind) (va : Word) (priv : Priv) (s : State) : Host.Outcome State Fault Refusal :=
  if s.m = 0#1 then .next (accessOff kind va s) else accessOn kind va priv s

/-! ## A descriptor run alone -/

/-- The walk hardware has decoded a descriptor for `walkVa`: its result stands in `walkResult` (log entry 29). -/
def finishWalk (r : WalkResult) (s : State) : State :=
  { s with walkActive := false, walkResult := some r }

end Sys2Proof.Machine
end

