-- ==== Sys2Proof/Machine/Accesses.lean ====
section
/-! DEFINITION. The three kinds of `ACCESS` (spec/40_access_sequence.md R110, R122). -/

namespace Sys2Proof.Machine

/-- `ACCESS(ifetch, va, priv)` (R110, R122): the instruction TLB when the TLBs are split (R113). -/
def execAccessIfetch (va : Word) (priv : Priv) (s : State) : Host.Outcome State Fault Refusal :=
  access .ifetch va priv s

/-- `ACCESS(read, va, priv)` (R110, R122). -/
def execAccessRead (va : Word) (priv : Priv) (s : State) : Host.Outcome State Fault Refusal :=
  access .read va priv s

/-- `ACCESS(write, va, priv)` (R110, R122). -/
def execAccessWrite (va : Word) (priv : Priv) (s : State) : Host.Outcome State Fault Refusal :=
  access .write va priv s

end Sys2Proof.Machine
end

