-- ==== Sys2Proof/Machine/Control.lean ====
section
/-! DEFINITION. The control operations (spec/41_control_operations.md R140 to R147). None has a privilege argument (R199,
log entry 34). -/

namespace Sys2Proof.Machine

/-- `CP15.WRITE_M(b)` (R140, R141): `M <- b` and nothing else. -/
def execCp15WriteM (b : BitVec 1) (s : State) : Host.Outcome State Fault Refusal :=
  .next (answer .done { s with m := b })

/-- What `TTBR` holds after a write of `v` (R142): bits [31:14] of `v`; bits [13:0] zero if those of `v` are, else
`UNSPECIFIED` (U3), the free value `low`. -/
def ttbrAfter (v : Word) (low : BitVec 14) : Word :=
  v.extractLsb' 14 18 ++ (if v.extractLsb' 0 14 = 0#14 then 0#14 else low)

/-- `CP15.WRITE_TTBR(v)` (R142); the TLBs are not touched (R143). -/
def execCp15WriteTtbr (v : Word) (s : State) : Host.Outcome State Fault Refusal :=
  .next (drawn (answer .done { s with ttbr := ttbrAfter v (Config.ttbrLow s.draws) }))

/-- `TLB.FLUSH` (R144, R145): in every TLB of the system. -/
def execTlbFlush (s : State) : Host.Outcome State Fault Refusal :=
  .next (answer .done { s with tlbs := s.tlbs.map (flushSlots s.cfg.flushRemovesLocked) })

/-- The slots of TLB `t` with the entry locked in one of its unused or unlocked slots (R146). -/
def lockInto (t : TlbName) (e : TlbEntry) (s : State) : Host.Outcome State Fault Refusal :=
  match pick (Config.victim s.draws) (replaceable (s.tlbs.slots t)) with
  | none => .refused .noSlotToLock
  | some i =>
    .next (drawn (answer .done
      { s with tlbs := s.tlbs.withSlots t ((s.tlbs.slots t).set i (.entry { e with locked := true })) }))

/-- `TLB.LOCK(t, va)` (R146): walk, place, mark. Outside its precondition (`P_TLB_LOCKDOWN`, `M == 1`, `t` a TLB of the
system) the spec gives it no effect; "a WalkFault locks nothing". -/
def execTlbLock (t : TlbName) (va : Word) (s : State) : Host.Outcome State Fault Refusal :=
  if s.cfg.tlbLockdown = false then .refused .lockdownAbsent
  else if s.m = 0#1 then .refused .lockWhileDisabled
  else if s.tlbs.has t = false then .refused .noSuchTlb
  else
    match tableWalk s va with
    | .fault _ _ => .next (answer .done s)
    | .refused why => .refused (.walkRefused why)
    | .entry e => lockInto t e s

/-- `CP15.READ_ABORT_STATUS` (R147): answer the `AbortStatus` placeholder. -/
def execCp15ReadAbortStatus (s : State) : Host.Outcome State Fault Refusal :=
  .next (answer (.abortStatus s.abortStatus) s)

end Sys2Proof.Machine
end

