-- ==== Sys2Proof/Machine/Descriptors.lean ====
section
/-! DEFINITION. The four first-level descriptors (spec/42_translation.md R166 to R169), run by the walk hardware for
the virtual address `walkVa`. An `ACCESS` that misses uses the same `walkFault`, `walkSection`, `walkCoarse` and `walkFine`
inside its own step (`tableWalk`). -/

namespace Sys2Proof.Machine

/-- `L1.FAULT(d, va)` (R166): `WalkFault{translation, section}`, whatever bits [31:2] hold. -/
def execL1Fault (_ignored : BitVec 30) (s : State) : Host.Outcome State Fault Refusal :=
  .next (finishWalk walkFault s)

/-- `L1.COARSE(d, va)` (R168): `P_L2_WALK(coarse, d, va, Mem)`. -/
def execL1Coarse (base : BitVec 22) (sbz : BitVec 1) (domain : BitVec 4) (imp : BitVec 3) (s : State) :
    Host.Outcome State Fault Refusal :=
  .next (finishWalk (walkCoarse s.cfg s.mem base sbz domain imp s.walkVa) s)

/-- `L1.SECTION(d, va)` (R167): the entry of R170, unless should-be-zero bits are refused (R173). -/
def execL1Section (base : BitVec 12) (sbzHi : BitVec 8) (ap : BitVec 2) (sbzLo : BitVec 1) (domain : BitVec 4)
    (imp c b : BitVec 1) (s : State) : Host.Outcome State Fault Refusal :=
  .next (finishWalk (walkSection s.cfg base sbzHi ap sbzLo domain imp c b s.walkVa) s)

/-- `L1.FINE(d, va)` (R169): `P_L2_WALK(fine, d, va, Mem)`. -/
def execL1Fine (base : BitVec 20) (sbz : BitVec 3) (domain : BitVec 4) (imp : BitVec 3) (s : State) :
    Host.Outcome State Fault Refusal :=
  .next (finishWalk (walkFine s.cfg s.mem base sbz domain imp s.walkVa) s)

end Sys2Proof.Machine
end

