-- ==== Sys2Proof/Machine/Dispatch.lean ====
section
/-! DEFINITION. The meaning of every instruction: one arm per row of spec/opcode_table.json. -/

namespace Sys2Proof.Machine

open Sys2Proof

def exec (i : Instr) (s : State) : Host.Outcome State Fault Refusal :=
  match i with
  | .l1Fault ignored => Sys2Proof.Machine.execL1Fault ignored s
  | .l1Coarse base sbz domain imp => Sys2Proof.Machine.execL1Coarse base sbz domain imp s
  | .l1Section base sbzHi ap sbzLo domain imp c b => Sys2Proof.Machine.execL1Section base sbzHi ap sbzLo domain imp c b s
  | .l1Fine base sbz domain imp => Sys2Proof.Machine.execL1Fine base sbz domain imp s
  | .accessIfetch va priv => Sys2Proof.Machine.execAccessIfetch va priv s
  | .accessRead va priv => Sys2Proof.Machine.execAccessRead va priv s
  | .accessWrite va priv => Sys2Proof.Machine.execAccessWrite va priv s
  | .cp15WriteM b => Sys2Proof.Machine.execCp15WriteM b s
  | .cp15WriteTtbr v => Sys2Proof.Machine.execCp15WriteTtbr v s
  | .tlbFlush => Sys2Proof.Machine.execTlbFlush s
  | .tlbLock t va => Sys2Proof.Machine.execTlbLock t va s
  | .cp15ReadAbortStatus => Sys2Proof.Machine.execCp15ReadAbortStatus s

end Sys2Proof.Machine
end

