-- ==== Sys2Proof/Machine/Step.lean ====
section
/-! DEFINITION. One step of the machine (R62: one request at a time, each atomic, in the order the environment issues
them), and how an instruction word is placed where the next step fetches it. -/

namespace Sys2Proof.Machine

/-- One step. With a first-level fetch pending for `walkVa` (log entry 2): fetch the descriptor at the address of R84,
decode it (R86) and run it. Else act on the oldest input of the environment; with none, nothing happens. -/
def step (s : State) : Host.Outcome State Fault Refusal :=
  if s.walkActive then
    match decodeBytes s.cfg.endian (fetchBytes s.mem (l1Address s.ttbr s.walkVa)) with
    | .ok (i, _) => exec i s
    | .error _ => .fault .undecodable
  else
    match s.inputs with
    | [] => .next s
    | .request r :: rest => exec (requestInstr r) { s with inputs := rest }
    | .storeWord pa w :: rest => .next { s with inputs := rest, mem := writeWord s.cfg.endian s.mem pa w }
    | .storeByte pa b :: rest => .next { s with inputs := rest, mem := storeByte s.mem pa b }
    | .setDomainControl v :: rest => .next { s with inputs := rest, domainControl := v }
    | .setOtherControl v :: rest => .next { s with inputs := rest, otherControl := v }

/-- `s` with a descriptor word placed as the first entry of a first-level table at address 0, that table selected in
`TTBR`, and the walk hardware about to fetch for virtual address 0, so that the next step fetches and runs exactly it
(log entry 2). Bits of `w` from `nbits` up are zero; the word is 32 bits (R80). -/
def State.withFetchWord (s : State) (nbits w : Nat) : State :=
  { s with
    ttbr := 0#32
    walkVa := 0#32
    walkActive := true
    mem := writeWord s.cfg.endian s.mem 0#32 (BitVec.ofNat 32 (w % 2 ^ nbits)) }

end Sys2Proof.Machine
end

