-- ==== Sys2Proof/Safety.lean ====
section
/-! DEFINITION. The terms claims about the machine use: the invariant every step keeps, the premises the spec names, the
constraints of `P_L2_WALK` (R176), and when the TLBs agree with the tables (R63, R64). -/

namespace Sys2Proof.Machine

/-! ## The invariant -/

/-- Every slot of every TLB of the system. -/
def Tlbs.allSlots : Tlbs → List Slot
  | .unified u => u
  | .split i d => i ++ d

/-- Every slot holds what R29 and R37 allow. -/
def Tlbs.legal (cachesFaults : Bool) (t : Tlbs) : Prop :=
  ∀ x ∈ t.allSlots, x.legal cachesFaults = true

/-- An entry a walk forms is legal (R29) and not locked (R170, R116). -/
def WalkResult.sound : WalkResult → Prop
  | .fault _ _ => True
  | .entry e => e.legal = true ∧ e.locked = false
  | .refused _ => True

/-- The invariant: memory in its canonical form (log entry 4), every TLB slot as R29 allows, and the walk hardware's
last result sound. -/
structure State.Inv (s : State) : Prop where
  mem_wf : Memory.wf s.mem
  tlbs_legal : s.tlbs.legal s.cfg.tlbCachesFaults
  walk_sound : ∀ r, s.walkResult = some r → r.sound

/-! ## Premises the spec names -/

/-- `H_NO_LOCKED_AT_RESET` (spec/00_scope.md section 4): no TLB slot is locked. -/
def State.noLocked (s : State) : Prop := ∀ x ∈ s.tlbs.allSlots, x.isLocked = false

/-- The MMU is enabled and `P_PERM` is instantiated: accesses are translated and checked (R111, R123). -/
def State.checks (s : State) : Prop := s.m = 1#1 ∧ s.cfg.perm ≠ .uninstantiated

/-- The slots of the TLB an access of this kind uses (R113). -/
def State.slotsFor (s : State) (kind : AccessKind) : List Slot := s.tlbs.slots (s.tlbs.nameFor kind)

/-- The first-level descriptor word for `va` in the tables as they are (R164). -/
def State.l1Word (s : State) (va : Word) : Word := readWord s.cfg.endian s.mem (l1Address s.ttbr va)

/-- The `ACCESS` of each kind, as an instruction. -/
def accessInstr (kind : AccessKind) (va : Word) (priv : Priv) : Instr := requestInstr (.access kind va priv)

/-! ## Answers -/

/-- The answer R118 to R120 give on an entry: the abort of a refused check, or the physical address with C and B. -/
def State.entryAnswer (s : State) (kind : AccessKind) (va : Word) (priv : Priv) (e : TlbEntry) : Response :=
  match checkEntry s kind va priv e with
  | .allow => .proceed (physicalAddress e va) e.c e.b
  | .refuse reason => .abort ⟨reason.toAbort, e.level, va, some e.domain⟩

/-- The answer on a matching slot (R114, R122). -/
def State.slotAnswer (s : State) (kind : AccessKind) (va : Word) (priv : Priv) : Slot → Response
  | .entry e => s.entryAnswer kind va priv e
  | .faultMark _ => .abort ⟨.translation, .sect, va, none⟩
  | .unused => .done

/-- `AbortStatus` after the answer: recorded by `P_ABORT_RECORD` on an abort (R195), else as it was. -/
def State.statusAfter (s : State) (kind : AccessKind) (r : Response) : AbortStatus :=
  match r with
  | .abort a => recordAbort s a kind
  | _ => s.abortStatus

/-- The answer of a machine that has no TLB: walk the tables as they are and use the result (R115, R119, R120). -/
def State.walkAnswer (s : State) (kind : AccessKind) (va : Word) (priv : Priv) : Option Response :=
  match tableWalk s va with
  | .entry e => some (s.entryAnswer kind va priv e)
  | .fault level domain => some (.abort ⟨.translation, level, va, domain⟩)
  | .refused _ => none

/-! ## Walks -/

/-- The constraints every instantiation of `P_L2_WALK(kind, d, va, Mem)` meets (R176). -/
def PageWalkShape (kind : TableKind) (d va : Word) : WalkResult → Prop
  | .fault level domain => level = .page ∧ domain = some (d.extractLsb' 5 4)
  | .entry e =>
    e.level = .page ∧ e.domain = d.extractLsb' 5 4 ∧ e.size ≠ .sect ∧ (kind = .coarse → e.size ≠ .tiny) ∧
      e.vaBase = (va >>> e.size.log2) <<< e.size.log2 ∧ e.locked = false ∧
      ((∃ ap, e.ap = .whole ap) ↔ e.size = .tiny)
  | .refused _ => True

/-- The bytes of two memories agree at the four addresses of one word. -/
def SameWordAt (mem mem' : Memory) (a : Word) : Prop := fetchBytes mem a = fetchBytes mem' a

/-! ## TLBs and tables -/

/-- The slot agrees with the tables as they are: a walk for any address it answers for gives its entry (but for the
lock), or the fault it marks. -/
def Slot.agrees (s : State) : Slot → Prop
  | .unused => True
  | .entry e => ∀ va, inRegion e.size e.vaBase va = true → tableWalk s va = .entry { e with locked := false }
  | .faultMark vaBase => ∀ va, inRegion .sect vaBase va = true → tableWalk s va = .fault .sect none

/-- No stale entry: every slot agrees with the tables (what software restores by `TLB.FLUSH`, R63, R64, R224). -/
def State.coherent (s : State) : Prop := ∀ x ∈ s.tlbs.allSlots, x.agrees s

/-- The new slots are the old ones with `x` in one replaceable slot, or as they were when there is none (R116). -/
def FilledWith (old new : List Slot) (x : Slot) : Prop :=
  (∃ i, i < old.length ∧ (old.getD i .unused).isLocked = false ∧ new = old.set i x) ∨
    ((∀ y ∈ old, y.isLocked = true) ∧ new = old)

/-! ## Runs -/

/-- `k` steps of the machine, as the host runs it. -/
def State.run (k : Nat) (s : State) : Host.Outcome State Fault Refusal := Host.Core.run Sys2Proof.core k s

end Sys2Proof.Machine
end

