-- ==== Sys2Proof/Certificates/Slice0/Obligations.lean ====
section
/-! DEFINITION. The statements about the model. `accessInstr kind va priv` is the `ACCESS` of that kind (the constructors
accessIfetch, accessRead, accessWrite), `d.toInstr` the descriptor row of a decoded word (l1Fault, l1Coarse, l1Section, l1Fine). -/

open Sys2Proof Sys2Proof.Machine

/-! ## Encodings -/

/-- No bit of a descriptor's encoding is dropped (spec/30_encoding.md section 3): in either byte order, the bytes of an
encoded instruction decode to it, whatever follows them. -/
def Obligations.DecodeOfEncodeIsTheInstruction : Prop :=
  ∀ (e : Config.Endian) (i : Instr) (w : Word) (rest : List Byte),
    encode i = some w → decodeBytes e (bytesOfWord e w ++ rest) = .ok (i, rest)

/-- Every word is the encoding of what it decodes to: each word has one meaning (spec/30_encoding.md section 3). -/
def Obligations.EncodeOfDecodeIsTheWord : Prop :=
  ∀ d : Word, encode (decodeDescriptor d).toInstr = some d

/-- R86: bits [1:0] decide the kind; each word matches exactly one row of the table, that of its decoding. -/
def Obligations.EveryWordIsExactlyOneKind : Prop :=
  ∀ d : Word,
    ((∃ x, decodeDescriptor d = .fault x) ↔ kindBits d = 0b00#2) ∧
    ((∃ b z n m, decodeDescriptor d = .coarse b z n m) ↔ kindBits d = 0b01#2) ∧
    ((∃ b z a y n m c f, decodeDescriptor d = .sect b z a y n m c f) ↔ kindBits d = 0b10#2) ∧
    ((∃ b z n m, decodeDescriptor d = .fine b z n m) ↔ kindBits d = 0b11#2) ∧
    (descriptorRows.filter (fun r => r.hit d)).map TableRow.mnemonic =
      [if kindBits d = 0b00#2 then "L1.FAULT" else if kindBits d = 0b01#2 then "L1.COARSE"
       else if kindBits d = 0b10#2 then "L1.SECTION" else "L1.FINE"]

/-- Words of spec/95_test_vectors.md (V9b, V12b, V11b, V11e, V13c) decode to the fields listed there. -/
def Obligations.SpecWordsDecode : Prop :=
  decodeTableWord 32 0xDEADBEEC = some (.l1Fault 0x37AB6FBB#30) ∧
  decodeTableWord 32 0x300081E1 = some (.l1Coarse 0xC0020#22 0#1 0xF#4 0#3) ∧
  decodeTableWord 32 0x000005E2 = some (.l1Section 0x000#12 0#8 0b01#2 0#1 0xF#4 0#1 0#1 0#1) ∧
  decodeTableWord 32 0x30101C0E = some (.l1Section 0x301#12 0x01#8 0b11#2 0#1 0#4 0#1 1#1 1#1) ∧
  decodeTableWord 32 0x3000A203 = some (.l1Fine 0x3000A#20 0b001#3 0#4 0#3)

/-- R84: the first-level address joins TTBR[31:14], va[31:20] and two 0 bits; as OR and as sum of the two parts. -/
def Obligations.FirstLevelAddressJoinsBaseAndIndex : Prop :=
  ∀ ttbr va : Word,
    (l1Address ttbr va).extractLsb' 14 18 = ttbr.extractLsb' 14 18 ∧
    (l1Address ttbr va).extractLsb' 2 12 = va.extractLsb' 20 12 ∧
    (l1Address ttbr va).extractLsb' 0 2 = 0b00#2 ∧
    l1Address ttbr va = (ttbr &&& 0xFFFFC000#32) ||| ((va >>> 20) <<< 2) ∧
    l1Address ttbr va = (ttbr &&& 0xFFFFC000#32) + ((va >>> 20) <<< 2)

/-! ## The first-level descriptors -/

/-- R166: `L1.FAULT` gives a translation fault at section level whatever bits [31:2] hold; an access of any kind and
privilege that misses on such a word aborts with it and records the abort. (The access is enabled and `P_PERM`
instantiated: `checks`, R123.) -/
def Obligations.FaultDescriptorAborts : Prop :=
  (∀ (ignored : BitVec 30) (s : State),
    exec (.l1Fault ignored) s = .next { s with walkActive := false, walkResult := some (.fault .sect none) }) ∧
  (∀ (kind : AccessKind) (va : Word) (priv : Priv) (s : State),
    s.checks → hits (s.slotsFor kind) va = [] → kindBits (s.l1Word va) = 0b00#2 →
    ∃ t, exec (accessInstr kind va priv) s = .next t ∧
      t.response = some (.abort ⟨.translation, .sect, va, none⟩) ∧
      t.abortStatus = recordAbort s ⟨.translation, .sect, va, none⟩ kind)

/-- R170: the entry a section descriptor `d` yields for the address walked. (`imp` has the width of the page descriptors'
field, log entry 33; should-be-zero bits are zero or ignored, R173.) -/
def Obligations.SectionDescriptorYieldsItsEntry : Prop :=
  ∀ (d : Word) (s : State),
    kindBits d = 0b10#2 →
    ((d.extractLsb' 12 8 = 0#8 ∧ d.extractLsb' 9 1 = 0#1) ∨ s.cfg.sbzNonzero = .ignore) →
    exec (decodeDescriptor d).toInstr s = .next { s with
      walkActive := false
      walkResult := some (.entry
        { vaBase := s.walkVa.extractLsb' 20 12 ++ 0#20
          size := .sect
          paBase := d.extractLsb' 20 12 ++ 0#20
          ap := .whole (d.extractLsb' 10 2)
          domain := d.extractLsb' 5 4
          c := d.extractLsb' 3 1
          b := d.extractLsb' 2 1
          imp := (d.extractLsb' 4 1).setWidth 3
          level := .sect
          locked := false }) }

/-- A descriptor with a should-be-zero bit set has no result when `P_SBZ_NONZERO` is refuse (spec/42_translation.md
section 4; for coarse and fine descriptors log entry 20). -/
def Obligations.SbzBitsRefusedByParameter : Prop :=
  ∀ (d : Word) (s : State),
    s.cfg.sbzNonzero = .refuse →
    ((kindBits d = 0b10#2 ∧ (d.extractLsb' 12 8 ≠ 0#8 ∨ d.extractLsb' 9 1 ≠ 0#1)) ∨
      (kindBits d = 0b01#2 ∧ d.extractLsb' 9 1 ≠ 0#1) ∨ (kindBits d = 0b11#2 ∧ d.extractLsb' 9 3 ≠ 0#3)) →
    exec (decodeDescriptor d).toInstr s =
      .next { s with walkActive := false, walkResult := some (.refused .sbzNonzero) }

/-- `L1.COARSE` and `L1.FINE` run to a result within the constraints of `P_L2_WALK` (spec/42_translation.md section 5): not
instantiated it is `WalkRefused`; an uninterpreted one never lacks a result for that reason. -/
def Obligations.PageDescriptorsRunSecondLevelWalk : Prop :=
  ∀ (table : TableKind) (d : Word) (s : State),
    kindBits d = (match table with | .coarse => 0b01#2 | .fine => 0b11#2) →
    (match table with | .coarse => d.extractLsb' 9 1 = 0#1 | .fine => d.extractLsb' 9 3 = 0#3) ∨
      s.cfg.sbzNonzero = .ignore →
    ∃ r, exec (decodeDescriptor d).toInstr s = .next { s with walkActive := false, walkResult := some r } ∧
      PageWalkShape table d s.walkVa r ∧
      (r = .refused .secondLevelOpen ↔ s.cfg.l2Walk = .uninstantiated)

/-- Under the candidate `P_L2_WALK` (PRESUMED: G5, G6, log entry 15): the second-level word is fetched at the table base joined
with the index, and its kind bits give the page fault or the page's entry. Should-be-zero bits of the first-level word are
zero or ignored; those of a large or tiny page word are zero, ignored, or refused (model's choice, log entry 20). -/
def Obligations.CandidatePageEntries : Prop :=
  ∀ (table : TableKind) (d d2 : Word) (s : State),
    s.cfg.l2Walk = .candidate →
    kindBits d = (match table with | .coarse => 0b01#2 | .fine => 0b11#2) →
    (match table with | .coarse => d.extractLsb' 9 1 = 0#1 | .fine => d.extractLsb' 9 3 = 0#3) ∨
      s.cfg.sbzNonzero = .ignore →
    readWord s.cfg.endian s.mem (match table with
      | .coarse => d.extractLsb' 10 22 ++ s.walkVa.extractLsb' 12 8 ++ 0b00#2
      | .fine => d.extractLsb' 12 20 ++ s.walkVa.extractLsb' 10 10 ++ 0b00#2) = d2 →
    ∃ r, exec (decodeDescriptor d).toInstr s = .next { s with walkActive := false, walkResult := some r } ∧
      (kindBits d2 = 0b00#2 → r = .fault .page (some (d.extractLsb' 5 4))) ∧
      (kindBits d2 = 0b01#2 → d2.extractLsb' 12 4 = 0#4 ∨ s.cfg.sbzNonzero = .ignore → r = .entry
        { vaBase := s.walkVa.extractLsb' 16 16 ++ 0#16, size := .large, paBase := d2.extractLsb' 16 16 ++ 0#16
          ap := .perSubpage (d2.extractLsb' 4 2) (d2.extractLsb' 6 2) (d2.extractLsb' 8 2) (d2.extractLsb' 10 2)
          domain := d.extractLsb' 5 4, c := d2.extractLsb' 3 1, b := d2.extractLsb' 2 1
          imp := d.extractLsb' 2 3, level := .page, locked := false }) ∧
      (kindBits d2 = 0b01#2 → d2.extractLsb' 12 4 ≠ 0#4 → s.cfg.sbzNonzero = .refuse → r = .refused .sbzNonzero) ∧
      (kindBits d2 = 0b10#2 → r = .entry
        { vaBase := s.walkVa.extractLsb' 12 20 ++ 0#12, size := .small, paBase := d2.extractLsb' 12 20 ++ 0#12
          ap := .perSubpage (d2.extractLsb' 4 2) (d2.extractLsb' 6 2) (d2.extractLsb' 8 2) (d2.extractLsb' 10 2)
          domain := d.extractLsb' 5 4, c := d2.extractLsb' 3 1, b := d2.extractLsb' 2 1
          imp := d.extractLsb' 2 3, level := .page, locked := false }) ∧
      (kindBits d2 = 0b11#2 → d2.extractLsb' 6 4 = 0#4 ∨ s.cfg.sbzNonzero = .ignore →
        r = match table with
          | .coarse => .refused .tinyInCoarse
          | .fine => .entry
            { vaBase := s.walkVa.extractLsb' 10 22 ++ 0#10, size := .tiny, paBase := d2.extractLsb' 10 22 ++ 0#10
              ap := .whole (d2.extractLsb' 4 2)
              domain := d.extractLsb' 5 4, c := d2.extractLsb' 3 1, b := d2.extractLsb' 2 1
              imp := d.extractLsb' 2 3, level := .page, locked := false }) ∧
      (kindBits d2 = 0b11#2 → d2.extractLsb' 6 4 ≠ 0#4 → s.cfg.sbzNonzero = .refuse → r = .refused .sbzNonzero)

/-- The frame of the four descriptor rows: only the walk hardware's own fields change, every byte of memory reads as before. -/
def Obligations.DescriptorFrame : Prop :=
  ∀ (d : Descriptor) (s t : State), exec d.toInstr s = .next t →
    t = { s with walkActive := false, walkResult := t.walkResult } ∧ ∀ a, byteAt t.mem a = byteAt s.mem a

/-! ## Walks -/

/-- The walk an access makes is the descriptor row its fetched word decodes to, run for that address
(spec/42_translation.md section 2). -/
def Obligations.WalkIsTheFetchedDescriptorRun : Prop :=
  ∀ (s : State) (va : Word),
    exec (decodeDescriptor (s.l1Word va)).toInstr { s with walkVa := va } =
      .next { s with walkVa := va, walkActive := false, walkResult := some (tableWalk s va) }

/-- A walk that ends at the first level reads one word only: memories that agree on the four bytes at the first-level address,
and table bases that agree on bits [31:14], give the same walk (spec/42_translation.md section 1). -/
def Obligations.FirstLevelWalkReadsOneWord : Prop :=
  ∀ (s s' : State) (va : Word),
    s'.cfg = s.cfg → s'.ttbr.extractLsb' 14 18 = s.ttbr.extractLsb' 14 18 →
    SameWordAt s.mem s'.mem (l1Address s.ttbr va) →
    kindBits (s.l1Word va) = 0b00#2 ∨ kindBits (s.l1Word va) = 0b10#2 →
    tableWalk s' va = tableWalk s va

/-- A page walk reads at most one word more (spec/42_translation.md sections 1 and 5; spec/20_memory.md section 3): memories that
agree on the four bytes at the second-level address give the same result. The address is word-aligned: the uninterpreted
`P_L2_WALK`'s word index (log entry 14) or the candidate's address (PRESUMED, log entry 15); not instantiated, none is read. -/
def Obligations.PageWalkReadsOneMoreWord : Prop :=
  ∀ (table : TableKind) (p : Config.Params) (d va : Word),
    kindBits d = (match table with | .coarse => 0b01#2 | .fine => 0b11#2) →
    (candidateL2Address table d va).extractLsb' 0 2 = 0b00#2 ∧
      ∀ mem mem' : Memory,
        (p.l2Walk = .uninterpreted → SameWordAt mem mem' (Config.l2Index table d va ++ 0b00#2)) →
        (p.l2Walk = .candidate → SameWordAt mem mem' (candidateL2Address table d va)) →
        descriptorResult p mem' va (decodeDescriptor d) = descriptorResult p mem va (decodeDescriptor d)

/-! ## Steps -/

/-- A step runs the decoded instruction: with a first-level fetch pending and the bytes of a word that encodes `i` at the fetch
address, the step is `exec i`. -/
def Obligations.StepRunsTheFetchedDescriptor : Prop :=
  ∀ (s : State) (i : Instr) (w : Word),
    s.walkActive = true → encode i = some w →
    fetchBytes s.mem (l1Address s.ttbr s.walkVa) = bytesOfWord s.cfg.endian w →
    step s = exec i s

/-- With no fetch pending a step takes the environment's oldest input: it runs a request, stores, or sets a placeholder
register (model's choice: log entries 1 and 23); with none it changes nothing. -/
def Obligations.StepTakesTheOldestInput : Prop :=
  ∀ (s : State) (rest : List Input), s.walkActive = false →
    (∀ r, s.inputs = .request r :: rest → step s = exec (requestInstr r) { s with inputs := rest }) ∧
    (∀ pa w, s.inputs = .storeWord pa w :: rest →
      ∃ t, step s = .next t ∧ t = { s with inputs := rest, mem := t.mem } ∧ readWord s.cfg.endian t.mem pa = w ∧
        ∀ a, a ≠ pa → a ≠ pa + 1 → a ≠ pa + 2 → a ≠ pa + 3 → byteAt t.mem a = byteAt s.mem a) ∧
    (∀ pa b, s.inputs = .storeByte pa b :: rest →
      ∃ t, step s = .next t ∧ t = { s with inputs := rest, mem := t.mem } ∧ byteAt t.mem pa = b ∧
        ∀ a, a ≠ pa → byteAt t.mem a = byteAt s.mem a) ∧
    (∀ v, s.inputs = .setDomainControl v :: rest → step s = .next { s with inputs := rest, domainControl := v }) ∧
    (∀ v, s.inputs = .setOtherControl v :: rest → step s = .next { s with inputs := rest, otherControl := v }) ∧
    (s.inputs = [] → step s = .next s)

/-- A descriptor word placed by `withFetchWord` is what the next step runs (log entry 2). -/
def Obligations.PlacedWordRunsNext : Prop :=
  ∀ (s : State) (w : Word),
    step (s.withFetchWord 32 w.toNat) = exec (decodeDescriptor w).toInstr (s.withFetchWord 32 w.toNat)

/-- The machine never stops with a fault: every fetched word is a descriptor (spec/30_encoding.md section 3), and an abort
is an answer. -/
def Obligations.NoStepFaults : Prop :=
  ∀ (s : State) (f : Fault), step s ≠ .fault f

/-- A word stored reads back in either byte order, its bytes lie where `P_ENDIAN` says, and no other byte changes
(spec/20_memory.md section 3, which speaks of word-aligned addresses). That a word can be stored at any address, and that its
bytes wrap at 2^32, is the model's choice (log entry 23). -/
def Obligations.StoredWordReadsBack : Prop :=
  ∀ (e : Config.Endian) (mem : Memory) (a w : Word),
    readWord e (writeWord e mem a w) a = w ∧
    byteAt (writeWord .little mem a w) a = w.extractLsb' 0 8 ∧
    byteAt (writeWord .big mem a w) a = w.extractLsb' 24 8 ∧
    ∀ c, c ≠ a → c ≠ a + 1 → c ≠ a + 2 → c ≠ a + 3 → byteAt (writeWord e mem a w) c = byteAt mem c

/-! ## `ACCESS` -/

/-- With `M` = 0 every access proceeds to the address unchanged and changes nothing but the answer (spec/40_access_sequence.md
section 3). B, and C where it has no effect, are 0 by the spec's decision D19 (log entry 24). -/
def Obligations.DisabledAccessIsFlat : Prop :=
  ∀ (kind : AccessKind) (va : Word) (priv : Priv) (s : State), s.m = 0#1 →
    exec (accessInstr kind va priv) s = .next { s with
      response := some (.proceed va
        (if kind = .ifetch ∧ s.cfg.cacheWhenMmuOff = true ∧ s.tlbs.isSplit = true then 1#1 else 0#1) 0#1) }

/-- With `M` = 1 and a matching slot, the access answers from one of the matching slots (any: D20, log entry 9), and only the
answer, the abort status and the model's draw counter change. -/
def Obligations.MatchingSlotAnswers : Prop :=
  ∀ (kind : AccessKind) (va : Word) (priv : Priv) (s : State),
    s.checks → hits (s.slotsFor kind) va ≠ [] →
    ∃ x ∈ hits (s.slotsFor kind) va,
      exec (accessInstr kind va priv) s = .next { s with
        response := some (s.slotAnswer kind va priv x)
        abortStatus := s.statusAfter kind (s.slotAnswer kind va priv x)
        draws := s.draws + 1 }

/-- An allowed access on its one matching entry proceeds: the high bits of the physical address are the region's, the offset
the virtual address's, C and B the entry's (spec/40_access_sequence.md section 2). -/
def Obligations.AllowedHitProceeds : Prop :=
  ∀ (kind : AccessKind) (va : Word) (priv : Priv) (s : State) (e : TlbEntry),
    s.checks → hits (s.slotsFor kind) va = [.entry e] → checkEntry s kind va priv e = .allow →
    ∃ pa : Word,
      exec (accessInstr kind va priv) s = .next { s with response := some (.proceed pa e.c e.b), draws := s.draws + 1 } ∧
      pa >>> e.size.log2 = e.paBase >>> e.size.log2 ∧
      ∀ i, i < e.size.log2 → pa.getLsbD i = va.getLsbD i

/-- A check that refuses turns the access into an abort with the entry's level and domain and no physical address, whatever
the hit (spec/60_exceptions.md sections 1 and 2). -/
def Obligations.RefusedHitAborts : Prop :=
  ∀ (kind : AccessKind) (va : Word) (priv : Priv) (s : State) (e : TlbEntry) (reason : PermReason),
    s.checks → hits (s.slotsFor kind) va = [.entry e] → checkEntry s kind va priv e = .refuse reason →
    exec (accessInstr kind va priv) s = .next { s with
      response := some (.abort ⟨reason.toAbort, e.level, va, some e.domain⟩)
      abortStatus := recordAbort s ⟨reason.toAbort, e.level, va, some e.domain⟩ kind
      draws := s.draws + 1 }

/-- A miss whose walk gives an entry fills the TLB the access uses (an unlocked slot, or none when all are locked) before the
check, so that a refused access leaves its entry too; every other TLB and field is as it was (spec/40_access_sequence.md
section 2; keeping nothing when no slot is free is D18). -/
def Obligations.MissFillsBeforeTheCheck : Prop :=
  ∀ (kind : AccessKind) (va : Word) (priv : Priv) (s : State) (e : TlbEntry),
    s.checks → hits (s.slotsFor kind) va = [] → tableWalk s va = .entry e →
    ∃ t, exec (accessInstr kind va priv) s = .next t ∧
      t = { s with
        tlbs := t.tlbs
        response := some (s.entryAnswer kind va priv e)
        abortStatus := s.statusAfter kind (s.entryAnswer kind va priv e)
        draws := s.draws + 1 } ∧
      FilledWith (s.slotsFor kind) (t.slotsFor kind) (.entry e) ∧
      ∀ n, n ≠ s.tlbs.nameFor kind → t.tlbs.slots n = s.tlbs.slots n

/-- Section translation from the table (spec/42_translation.md section 4): a miss on a section word `d` with zero
should-be-zero bits, allowed by the check, proceeds to `d[31:20] : va[19:0]` with C = `d[3]` and B = `d[2]`. -/
def Obligations.SectionMissProceeds : Prop :=
  ∀ (kind : AccessKind) (va : Word) (priv : Priv) (s : State) (d : Word),
    s.checks → hits (s.slotsFor kind) va = [] → s.l1Word va = d → kindBits d = 0b10#2 →
    d.extractLsb' 12 8 = 0#8 → d.extractLsb' 9 1 = 0#1 →
    permission s.cfg (d.extractLsb' 10 2) (d.extractLsb' 5 4) .sect kind priv s.domainControl s.otherControl = .allow →
    ∃ t, exec (accessInstr kind va priv) s = .next t ∧
      t.response = some (.proceed (d.extractLsb' 20 12 ++ va.extractLsb' 0 20) (d.extractLsb' 3 1) (d.extractLsb' 2 1)) ∧
      t.abortStatus = s.abortStatus

/-- A miss whose walk faults aborts with a translation fault of that level and domain; at most a fault mark for the megabyte
is left, and only when the parameter allows it and the first-level descriptor is the fault (log entry 10). -/
def Obligations.FaultingMissAborts : Prop :=
  ∀ (kind : AccessKind) (va : Word) (priv : Priv) (s : State) (level : Level) (domain : Option (BitVec 4)),
    s.checks → hits (s.slotsFor kind) va = [] → tableWalk s va = .fault level domain →
    ∃ t, exec (accessInstr kind va priv) s = .next t ∧
      t = { s with
        tlbs := t.tlbs
        response := some (.abort ⟨.translation, level, va, domain⟩)
        abortStatus := recordAbort s ⟨.translation, level, va, domain⟩ kind
        draws := s.draws + 1 } ∧
      (t.tlbs = s.tlbs ∨
        (level = .sect ∧ s.cfg.tlbCachesFaults = true ∧
          FilledWith (s.slotsFor kind) (t.slotsFor kind) (.faultMark (va.extractLsb' 20 12 ++ 0#20)) ∧
          ∀ n, n ≠ s.tlbs.nameFor kind → t.tlbs.slots n = s.tlbs.slots n))

/-- An access stops exactly when the spec has no meaning for it (spec/40_access_sequence.md section 4): enabled, and either
`P_PERM` is not instantiated or a miss's walk is refused. -/
def Obligations.AccessStopsExactlyWhen : Prop :=
  ∀ (kind : AccessKind) (va : Word) (priv : Priv) (s : State) (r : Refusal),
    exec (accessInstr kind va priv) s = .refused r ↔
      s.m = 1#1 ∧
        ((s.cfg.perm = .uninstantiated ∧ r = .permissionCheckOpen) ∨
          (s.cfg.perm ≠ .uninstantiated ∧ hits (s.slotsFor kind) va = [] ∧
            ∃ why, tableWalk s va = .refused why ∧ r = .walkRefused why))

/-- What an access answers (spec/40_access_sequence.md section 1, spec/60_exceptions.md section 1): `Proceed` with the abort
status as it was, or an abort of this address, with `M` = 1, recorded by `P_ABORT_RECORD`, without a domain exactly when it is
the section-level translation fault. -/
def Obligations.AccessAnswersProceedOrAbort : Prop :=
  ∀ (kind : AccessKind) (va : Word) (priv : Priv) (s t : State),
    exec (accessInstr kind va priv) s = .next t →
    (∃ pa c b, t.response = some (.proceed pa c b) ∧ t.abortStatus = s.abortStatus) ∨
    (s.m = 1#1 ∧ ∃ a : Abort, t.response = some (.abort a) ∧ a.va = va ∧ t.abortStatus = recordAbort s a kind ∧
      (a.domain = none ↔ a.reason = .translation ∧ a.level = .sect))

/-- The frame of the accesses: no register of CP15 but the abort status, no parameter, no byte of memory, no TLB but the one the
access uses changes; with `M` = 0 none of them does. -/
def Obligations.AccessFrame : Prop :=
  ∀ (kind : AccessKind) (va : Word) (priv : Priv) (s t : State),
    exec (accessInstr kind va priv) s = .next t →
    t = { s with tlbs := t.tlbs, abortStatus := t.abortStatus, response := t.response, draws := t.draws } ∧
    (∀ a, byteAt t.mem a = byteAt s.mem a) ∧
    (∀ n, n ≠ s.tlbs.nameFor kind → t.tlbs.slots n = s.tlbs.slots n) ∧
    (hits (s.slotsFor kind) va ≠ [] → t.tlbs = s.tlbs) ∧
    (s.m = 0#1 → t = { s with response := t.response })

/-- A hit makes no memory access for translation (spec/40_access_sequence.md section 2): with any other memory and table base the
access does the same. -/
def Obligations.HitReadsNoTable : Prop :=
  ∀ (kind : AccessKind) (va : Word) (priv : Priv) (s t : State) (mem : Memory) (ttbr : Word),
    s.checks → hits (s.slotsFor kind) va ≠ [] →
    exec (accessInstr kind va priv) s = .next t →
    exec (accessInstr kind va priv) { s with mem := mem, ttbr := ttbr } = .next { t with mem := mem, ttbr := ttbr }

/-- Separate TLBs (spec/40_access_sequence.md section 2): an instruction fetch uses the instruction TLB, every other access the
data TLB; the other TLB is neither read nor written. -/
def Obligations.SplitTlbsAreIndependent : Prop :=
  ∀ (kind : AccessKind) (va : Word) (priv : Priv) (s t : State) (i d other : List Slot),
    s.tlbs = .split i d → exec (accessInstr kind va priv) s = .next t →
    (kind = .ifetch → ∃ i', t.tlbs = .split i' d ∧
      exec (accessInstr kind va priv) { s with tlbs := .split i other } = .next { t with tlbs := .split i' other }) ∧
    (kind ≠ .ifetch → ∃ d', t.tlbs = .split i d' ∧
      exec (accessInstr kind va priv) { s with tlbs := .split other d } = .next { t with tlbs := .split other d' })

/-! ## Control operations -/

/-- `CP15.WRITE_M(b)` sets `M` to `b` and raises no abort; an access that follows reads the new value: passed through for 0,
translated for 1 (here: an unmapped address aborts) (spec/41_control_operations.md). Everything else stays (R141, the spec's
decision D21); that bits [31:1] of the register stay too is the model's choice (log entry 28), since R140 leaves them outside. -/
def Obligations.WriteMSetsTheEnableBit : Prop :=
  ∀ (b : BitVec 1) (s : State),
    exec (.cp15WriteM b) s = .next { s with m := b, response := some .done } ∧
    (b = 0#1 → ∀ kind va priv, ∃ c f,
      exec (accessInstr kind va priv) { s with m := b, response := some .done } =
        .next { s with m := b, response := some (.proceed va c f) }) ∧
    (b = 1#1 → s.cfg.perm ≠ .uninstantiated → ∀ kind va priv,
      hits (s.slotsFor kind) va = [] → kindBits (s.l1Word va) = 0b00#2 →
      ∃ t, exec (accessInstr kind va priv) { s with m := b, response := some .done } = .next t ∧
        t.response = some (.abort ⟨.translation, .sect, va, none⟩))

/-- R142: `CP15.WRITE_TTBR(v)` writes bits [31:14] of `v`; bits [13:0] become 0 if those of `v` are 0 (else some value, which
no walk reads). -/
def Obligations.WriteTtbrSelectsTheTable : Prop :=
  ∀ (v : Word) (s : State),
    ∃ low : BitVec 14,
      exec (.cp15WriteTtbr v) s =
        .next { s with ttbr := v.extractLsb' 14 18 ++ low, response := some .done, draws := s.draws + 1 } ∧
      (v.extractLsb' 0 14 = 0#14 → low = 0#14) ∧
      ∀ va, tableWalk { s with ttbr := v.extractLsb' 14 18 ++ low } va = tableWalk { s with ttbr := v } va

/-- R144: `TLB.FLUSH` makes every unlocked slot of every TLB unused (locked ones too by the parameter) and changes nothing
else; an address no locked entry covers misses afterwards, and an enabled access to it answers what walking the tables as
they are then (any memory and table base) gives, or stops with that walk. -/
def Obligations.FlushRemovesCachedWalks : Prop :=
  ∀ s : State,
    ∃ t : State,
      exec .tlbFlush s = .next t ∧
      t = { s with tlbs := t.tlbs, response := some .done } ∧
      t.tlbs.isSplit = s.tlbs.isSplit ∧
      (∀ n, (t.tlbs.slots n).length = (s.tlbs.slots n).length ∧
        (∀ (j : Nat) (x : Slot), (s.tlbs.slots n)[j]? = some x →
          (t.tlbs.slots n)[j]? =
            some (if x.isLocked = true ∧ s.cfg.flushRemovesLocked = false then x else .unused)) ∧
        ∀ va, (∀ x ∈ s.tlbs.slots n, x.isLocked = true → x.covers va = false) → hits (t.tlbs.slots n) va = []) ∧
      ∀ (kind : AccessKind) (va : Word) (priv : Priv) (mem : Memory) (ttbr : Word), s.checks →
        (∀ x ∈ s.slotsFor kind, x.isLocked = true → x.covers va = false) →
        (∀ r, State.walkAnswer { t with mem := mem, ttbr := ttbr } kind va priv = some r →
          ∃ u, exec (accessInstr kind va priv) { t with mem := mem, ttbr := ttbr } = .next u ∧ u.response = some r) ∧
        (∀ why, tableWalk { t with mem := mem, ttbr := ttbr } va = .refused why →
          exec (accessInstr kind va priv) { t with mem := mem, ttbr := ttbr } = .refused (.walkRefused why))

/-- `TLB.LOCK(n, va)` inside its precondition: the walk's entry stands locked in one slot that was not; a walk that faults locks
nothing (spec/41_control_operations.md; the operation's form is the spec's own, D23, log entry 21). -/
def Obligations.LockPlacesTheEntryLocked : Prop :=
  ∀ (n : TlbName) (va : Word) (s : State),
    s.cfg.tlbLockdown = true → s.m = 1#1 → s.tlbs.has n = true →
    (∀ e, tableWalk s va = .entry e → (∃ x ∈ s.tlbs.slots n, x.isLocked = false) →
      ∃ j, j < (s.tlbs.slots n).length ∧ ((s.tlbs.slots n).getD j .unused).isLocked = false ∧
        exec (.tlbLock n va) s = .next { s with
          tlbs := s.tlbs.withSlots n ((s.tlbs.slots n).set j (.entry { e with locked := true }))
          response := some .done
          draws := s.draws + 1 }) ∧
    (∀ level domain, tableWalk s va = .fault level domain →
      exec (.tlbLock n va) s = .next { s with response := some .done })

/-- `TLB.LOCK` stops exactly outside its precondition, on a refused walk, or with every slot locked ("if none, the operation is
refused"; spec/41_control_operations.md, log entry 21). -/
def Obligations.LockStopsExactlyWhen : Prop :=
  ∀ (n : TlbName) (va : Word) (s : State),
    (∃ r, exec (.tlbLock n va) s = .refused r) ↔
      s.cfg.tlbLockdown = false ∨ s.m = 0#1 ∨ s.tlbs.has n = false ∨ (∃ why, tableWalk s va = .refused why) ∨
        ((∃ e, tableWalk s va = .entry e) ∧ ∀ x ∈ s.tlbs.slots n, x.isLocked = true)

/-- `CP15.READ_ABORT_STATUS` answers `AbortStatus`; after an access that aborted, what `P_ABORT_RECORD` recorded for it
(spec/41_control_operations.md, spec/60_exceptions.md section 1; the operation's form is D8). -/
def Obligations.ReadAbortStatusAnswersTheRecord : Prop :=
  ∀ s : State,
    exec .cp15ReadAbortStatus s = .next { s with response := some (.abortStatus s.abortStatus) } ∧
    ∀ kind va priv t a, exec (accessInstr kind va priv) s = .next t → t.response = some (.abort a) →
      exec .cp15ReadAbortStatus t = .next { t with response := some (.abortStatus (recordAbort s a kind)) }

/-- The frame of the control operations: each changes only what its rule names, the answer and the draw counter; none a byte of
memory. That a write of `M` changes nothing else is R141 (D21); that it keeps bits [31:1] of its register is the model's
choice (log entry 28). -/
def Obligations.ControlFrame : Prop :=
  ∀ s t : State,
    (∀ b, exec (.cp15WriteM b) s = .next t → t = { s with m := t.m, response := t.response }) ∧
    (∀ v, exec (.cp15WriteTtbr v) s = .next t →
      t = { s with ttbr := t.ttbr, response := t.response, draws := t.draws }) ∧
    (exec .tlbFlush s = .next t → t = { s with tlbs := t.tlbs, response := t.response }) ∧
    (∀ n va, exec (.tlbLock n va) s = .next t →
      t = { s with tlbs := t.tlbs, response := t.response, draws := t.draws } ∧
        ∀ n', n' ≠ n → t.tlbs.slots n' = s.tlbs.slots n') ∧
    (exec .cp15ReadAbortStatus s = .next t → t = { s with response := t.response }) ∧
    (∀ r, exec (requestInstr r) s = .next t → ∀ a, byteAt t.mem a = byteAt s.mem a)

/-! ## Rules of the whole machine -/

/-- Only its own operation writes a register: `M` only `CP15.WRITE_M`, `TTBR` only `CP15.WRITE_TTBR`, `AbortStatus` only an abort,
the TLBs only an enabled access, a flush or a lock; no instruction writes the placeholders, the parameters or main memory.
That none writes bits [31:1] of CP15[1] is the model's choice (log entry 28): the spec does not describe such a write (N16). -/
def Obligations.OnlyItsOperationWritesARegister : Prop :=
  ∀ (i : Instr) (s t : State), exec i s = .next t →
    (t.m ≠ s.m → ∃ b, i = .cp15WriteM b) ∧
    (t.ttbr ≠ s.ttbr → ∃ v, i = .cp15WriteTtbr v) ∧
    (t.abortStatus ≠ s.abortStatus → (∃ kind va priv, i = accessInstr kind va priv) ∧ ∃ a, t.response = some (.abort a)) ∧
    (t.tlbs ≠ s.tlbs →
      i = .tlbFlush ∨ (∃ n va, i = .tlbLock n va) ∨ (s.m = 1#1 ∧ ∃ kind va priv, i = accessInstr kind va priv)) ∧
    t.controlHigh = s.controlHigh ∧ t.domainControl = s.domainControl ∧ t.otherControl = s.otherControl ∧
    t.cfg = s.cfg ∧ t.mem = s.mem

/-- The MMU never writes main memory (spec/10_state.md section 4): over one step, memory changes only by a store of the
environment. -/
def Obligations.MemoryChangesOnlyByStores : Prop :=
  ∀ s t : State, step s = .next t →
    (∃ a, byteAt t.mem a ≠ byteAt s.mem a) →
    s.walkActive = false ∧
      ∃ rest, (∃ pa w, s.inputs = .storeWord pa w :: rest) ∨ (∃ pa b, s.inputs = .storeByte pa b :: rest)

/-- The parameters of a machine never change: `cfg`, the arrangement of the TLBs and the number of their slots
(spec/00_scope.md section 4). -/
def Obligations.ParametersNeverChange : Prop :=
  ∀ s t : State, step s = .next t →
    t.cfg = s.cfg ∧ t.tlbs.isSplit = s.tlbs.isSplit ∧
      ∀ n, (t.tlbs.slots n).length = (s.tlbs.slots n).length

/-! ## Invariants -/

/-- The invariant holds after reset, whatever the parameters. -/
def Obligations.ResetMeetsTheInvariant : Prop :=
  State.reset.Inv ∧ ∀ cfg, (State.resetOf cfg).Inv

/-- Every step keeps the invariant: memory canonical, every TLB slot as spec/10_state.md R29 allows, the walk result sound. -/
def Obligations.StepKeepsTheInvariant : Prop :=
  ∀ s t : State, s.Inv → step s = .next t → t.Inv

/-- A locked slot stays as it is over every step, except a flush that removes locked entries (spec/40_access_sequence.md
section 2, spec/70_reset_and_hazards.md section 3). -/
def Obligations.LockedSlotStaysOverAStep : Prop :=
  ∀ (s t : State) (n : TlbName) (j : Nat) (x : Slot),
    step s = .next t → (s.tlbs.slots n)[j]? = some x → x.isLocked = true →
    ¬ (s.cfg.flushRemovesLocked = true ∧ s.walkActive = false ∧ ∃ rest, s.inputs = .request .flush :: rest) →
    (t.tlbs.slots n)[j]? = some x

/-- R117, the lock guarantee over whole runs: an address that a locked entry of a TLB covers hits in that TLB after any number of
steps, with the entry still there, and no access to it that uses this TLB walks the tables: with any other memory and table
base it does the same. (Between flushes that remove locked entries, R145.) -/
def Obligations.LockedRegionNeverMisses : Prop :=
  ∀ (k : Nat) (s t : State) (n : TlbName) (x : Slot) (va : Word),
    s.cfg.flushRemovesLocked = false ∨ .request .flush ∉ s.inputs →
    x ∈ s.tlbs.slots n → x.isLocked = true → x.covers va = true →
    s.run k = .next t →
    x ∈ hits (t.tlbs.slots n) va ∧
      ∀ (kind : AccessKind) (priv : Priv) (mem : Memory) (ttbr : Word) (u : State), t.tlbs.nameFor kind = n →
        exec (accessInstr kind va priv) t = .next u →
        exec (accessInstr kind va priv) { t with mem := mem, ttbr := ttbr } = .next { u with mem := mem, ttbr := ttbr }

/-- R34: after reset `M` is 0 and the MMU is disabled: the first access of any kind is passed through unchanged. -/
def Obligations.ResetDisablesTheMmu : Prop :=
  State.reset.m = 0#1 ∧ (∀ cfg, (State.resetOf cfg).m = 0#1) ∧
  ∀ kind va priv, ∃ c b,
    exec (accessInstr kind va priv) State.reset = .next { State.reset with response := some (.proceed va c b) }

/-- From a disabled machine (as after reset), until `CP15.WRITE_M(1)` is issued: after any number of steps the MMU is still
disabled, no abort has been answered or recorded, and `TTBR` and the TLBs are as they were unless written or flushed
(spec/70_reset_and_hazards.md section 1). -/
def Obligations.DisabledRunStaysFlat : Prop :=
  ∀ (k : Nat) (s t : State),
    s.m = 0#1 → .request (.writeM 1#1) ∉ s.inputs → (∀ a, s.response ≠ some (.abort a)) →
    s.run k = .next t →
    t.m = 0#1 ∧ t.abortStatus = s.abortStatus ∧ (∀ a, t.response ≠ some (.abort a)) ∧
      (.request .flush ∉ s.inputs → t.tlbs = s.tlbs) ∧
      ((∀ v, .request (.writeTtbr v) ∉ s.inputs) → t.ttbr = s.ttbr)

/-! ## TLBs and tables -/

/-- After a flush that leaves no locked entry, every slot agrees with the tables as they are: no stale translation
(spec/20_memory.md section 5). -/
def Obligations.FlushMakesTheTlbsCoherent : Prop :=
  ∀ s t : State, s.noLocked ∨ s.cfg.flushRemovesLocked = true → exec .tlbFlush s = .next t →
    t.coherent ∧ ∀ kind va, hits (t.slotsFor kind) va = []

/-- While the page paths are not instantiated (sections only), no access and no lock makes a slot stale: only a change of tables
or table base can (spec/20_memory.md section 5). -/
def Obligations.SectionAccessesKeepCoherence : Prop :=
  ∀ s t : State, s.cfg.l2Walk = .uninstantiated → s.coherent →
    (∀ kind va priv, exec (accessInstr kind va priv) s = .next t → t.coherent) ∧
    (∀ n va, exec (.tlbLock n va) s = .next t → t.coherent)

/-- Refinement: with no stale entry the TLB cannot be seen. An enabled access answers exactly what a machine that has no TLB, and
walks the tables for every access, answers. -/
def Obligations.CoherentTlbIsTransparent : Prop :=
  ∀ (kind : AccessKind) (va : Word) (priv : Priv) (s : State), s.checks → s.coherent →
    (∀ t, exec (accessInstr kind va priv) s = .next t → t.response = s.walkAnswer kind va priv) ∧
    (∀ r, s.walkAnswer kind va priv = some r → ∃ t, exec (accessInstr kind va priv) s = .next t ∧ t.response = some r)

/-! ## Under the candidates of spec/93_implementation_defined.md (PRESUMED) -/

/-- The candidate check (PRESUMED: G3, G4, log entry 13) has the three outcomes every instantiation must have
(spec/40_access_sequence.md section 2): for each privilege state some region is no-access, some read-only, some read/write. -/
def Obligations.CandidateCheckHasThreeOutcomes : Prop :=
  ∀ (p : Config.Params) (level : Level) (priv : Priv), p.perm = .candidate →
    (∃ ap domain dc oc, ∀ kind, ∃ reason, permission p ap domain level kind priv dc oc = .refuse reason) ∧
    (∃ ap domain dc oc, permission p ap domain level .read priv dc oc = .allow ∧
      permission p ap domain level .write priv dc oc = .refuse .permission) ∧
    (∃ ap domain dc oc, ∀ kind, permission p ap domain level kind priv dc oc = .allow)

/-- The candidate check (PRESUMED: G3, G4, log entry 13): the domain is examined first; field 0b00 or 0b10 refuses every access
as a domain fault, 0b11 allows every access, and only 0b01 consults the access-control field. For field 0b00 the bits S
(`OtherControl` bit 8) and R (bit 9) decide; with both set G3 is unpredictable and the answer a free value of kind and
privilege. -/
def Obligations.CandidateDomainIsExaminedFirst : Prop :=
  ∀ (p : Config.Params) (ap : BitVec 2) (domain : BitVec 4) (level : Level) (kind : AccessKind) (priv : Priv) (dc oc : Word),
    p.perm = .candidate →
    let field := (dc >>> (2 * domain.toNat)).extractLsb' 0 2
    (field = 0b00#2 ∨ field = 0b10#2 → permission p ap domain level kind priv dc oc = .refuse .domain) ∧
    (field = 0b11#2 → permission p ap domain level kind priv dc oc = .allow) ∧
    (field = 0b01#2 → ap = 0b11#2 → permission p ap domain level kind priv dc oc = .allow) ∧
    (field = 0b01#2 → ap = 0b10#2 → priv = .user →
      permission p ap domain level kind priv dc oc = if kind = .write then .refuse .permission else .allow) ∧
    (field = 0b01#2 → ap = 0b01#2 → priv = .user → permission p ap domain level kind priv dc oc = .refuse .permission) ∧
    (field = 0b01#2 → ap = 0b01#2 ∨ ap = 0b10#2 → priv = .privileged →
      permission p ap domain level kind priv dc oc = .allow) ∧
    (field = 0b01#2 → ap = 0b00#2 →
      (oc.getLsbD 8 = false → oc.getLsbD 9 = false → permission p ap domain level kind priv dc oc = .refuse .permission) ∧
      (oc.getLsbD 8 = true → oc.getLsbD 9 = false → permission p ap domain level kind priv dc oc =
        if kind = .write ∨ priv = .user then .refuse .permission else .allow) ∧
      (oc.getLsbD 8 = false → oc.getLsbD 9 = true → permission p ap domain level kind priv dc oc =
        if kind = .write then .refuse .permission else .allow) ∧
      (oc.getLsbD 8 = true → oc.getLsbD 9 = true → permission p ap domain level kind priv dc oc =
        Config.permUnpredictable kind priv))

/-- The candidate abort record (PRESUMED: G7, G8, log entry 18): a data access that aborts leaves its status code in [3:0], the
domain (when one was read) in [7:4], zero above, and its address; an instruction fetch leaves both registers as they were. -/
def Obligations.CandidateAbortStatusRecorded : Prop :=
  ∀ (kind : AccessKind) (va : Word) (priv : Priv) (s t : State) (a : Abort),
    s.cfg.abortRecord = .candidate → exec (accessInstr kind va priv) s = .next t → t.response = some (.abort a) →
    (kind = .ifetch → t.abortStatus = s.abortStatus) ∧
    (kind ≠ .ifetch →
      t.abortStatus.address = va ∧
      (a.reason = .translation → a.level = .sect → t.abortStatus.status.extractLsb' 0 4 = 0b0101#4) ∧
      (a.reason = .translation → a.level = .page → t.abortStatus.status.extractLsb' 0 4 = 0b0111#4) ∧
      (a.reason = .domain → a.level = .sect → t.abortStatus.status.extractLsb' 0 4 = 0b1001#4) ∧
      (a.reason = .domain → a.level = .page → t.abortStatus.status.extractLsb' 0 4 = 0b1011#4) ∧
      (a.reason = .permission → a.level = .sect → t.abortStatus.status.extractLsb' 0 4 = 0b1101#4) ∧
      (a.reason = .permission → a.level = .page → t.abortStatus.status.extractLsb' 0 4 = 0b1111#4) ∧
      (∀ d, a.domain = some d → t.abortStatus.status.extractLsb' 4 4 = d) ∧
      t.abortStatus.status.extractLsb' 8 24 = 0#24)

/-! ## Access control of entries -/

/-- Every instantiation of `P_PERM` has the property it must have (spec/40_access_sequence.md section 2): for a given privilege
state some region is no-access, some read-only, some read/write. -/
def Obligations.EveryCheckHasThreeOutcomes : Prop :=
  ∀ (p : Config.Params) (priv : Priv), p.perm ≠ .uninstantiated →
    (∃ ap domain level dc oc, ∀ kind, ∃ reason, permission p ap domain level kind priv dc oc = .refuse reason) ∧
    (∃ ap domain level dc oc, permission p ap domain level .read priv dc oc = .allow ∧
      ∃ reason, permission p ap domain level .write priv dc oc = .refuse reason) ∧
    (∃ ap domain level dc oc, permission p ap domain level .read priv dc oc = .allow ∧
      permission p ap domain level .write priv dc oc = .allow)

/-- Which access-control field an entry is checked with (spec/40_access_sequence.md section 2, spec/42_translation.md section 1):
its one field, or that of the 1 KB subpage of a small page or 16 KB subpage of a large page that contains the address, counted
in address order (which address bits that takes is DEDUCED, log entry 16). -/
def Obligations.EntryCheckedWithItsSubpageField : Prop :=
  ∀ (kind : AccessKind) (va : Word) (priv : Priv) (s : State) (e : TlbEntry),
    s.checks → hits (s.slotsFor kind) va = [.entry e] →
    let answerWith := fun (field : BitVec 2) =>
      match permission s.cfg field e.domain e.level kind priv s.domainControl s.otherControl with
      | .allow => Response.proceed (physicalAddress e va) e.c e.b
      | .refuse reason => Response.abort ⟨reason.toAbort, e.level, va, some e.domain⟩
    ∃ t, exec (accessInstr kind va priv) s = .next t ∧
      (∀ ap, e.ap = .whole ap → t.response = some (answerWith ap)) ∧
      ∀ ap0 ap1 ap2 ap3, e.ap = .perSubpage ap0 ap1 ap2 ap3 →
        ∀ n : BitVec 2, (e.size = .small ∧ va.extractLsb' 10 2 = n) ∨ (e.size = .large ∧ va.extractLsb' 14 2 = n) →
          (n = 0#2 → t.response = some (answerWith ap0)) ∧ (n = 1#2 → t.response = some (answerWith ap1)) ∧
          (n = 2#2 → t.response = some (answerWith ap2)) ∧ (n = 3#2 → t.response = some (answerWith ap3))

/-- Access control is the same all over a subpage, 1 KB of a small page or 16 KB of a large one, and all over a region without
subpages (spec/42_translation.md section 1). -/
def Obligations.SubpageHasOneAccessControl : Prop :=
  ∀ (kind : AccessKind) (va va' : Word) (priv : Priv) (s : State) (e : TlbEntry),
    (e.size = .small ∧ va >>> 10 = va' >>> 10) ∨ (e.size = .large ∧ va >>> 14 = va' >>> 14) ∨
      e.size = .sect ∨ e.size = .tiny →
    checkEntry s kind va priv e = checkEntry s kind va' priv e
end

