-- ==== Sys2Proof/Laws/State.lean ====
section
/-! SUPPORT. What each shared update of the state does to each field, so that no later proof unfolds one. -/

namespace Sys2Proof.Machine

/-! ## `answer` -/

@[simp] theorem answer_cfg (r : Response) (s : State) :
    (answer r s).cfg = s.cfg := rfl

@[simp] theorem answer_m (r : Response) (s : State) :
    (answer r s).m = s.m := rfl

@[simp] theorem answer_controlHigh (r : Response) (s : State) :
    (answer r s).controlHigh = s.controlHigh := rfl

@[simp] theorem answer_ttbr (r : Response) (s : State) :
    (answer r s).ttbr = s.ttbr := rfl

@[simp] theorem answer_abortStatus (r : Response) (s : State) :
    (answer r s).abortStatus = s.abortStatus := rfl

@[simp] theorem answer_domainControl (r : Response) (s : State) :
    (answer r s).domainControl = s.domainControl := rfl

@[simp] theorem answer_otherControl (r : Response) (s : State) :
    (answer r s).otherControl = s.otherControl := rfl

@[simp] theorem answer_tlbs (r : Response) (s : State) :
    (answer r s).tlbs = s.tlbs := rfl

@[simp] theorem answer_mem (r : Response) (s : State) :
    (answer r s).mem = s.mem := rfl

@[simp] theorem answer_walkVa (r : Response) (s : State) :
    (answer r s).walkVa = s.walkVa := rfl

@[simp] theorem answer_walkActive (r : Response) (s : State) :
    (answer r s).walkActive = s.walkActive := rfl

@[simp] theorem answer_walkResult (r : Response) (s : State) :
    (answer r s).walkResult = s.walkResult := rfl

@[simp] theorem answer_inputs (r : Response) (s : State) :
    (answer r s).inputs = s.inputs := rfl

@[simp] theorem answer_response (r : Response) (s : State) :
    (answer r s).response = some r := rfl

@[simp] theorem answer_draws (r : Response) (s : State) :
    (answer r s).draws = s.draws := rfl

/-! ## `drawn` -/

@[simp] theorem drawn_cfg (s : State) :
    (drawn s).cfg = s.cfg := rfl

@[simp] theorem drawn_m (s : State) :
    (drawn s).m = s.m := rfl

@[simp] theorem drawn_controlHigh (s : State) :
    (drawn s).controlHigh = s.controlHigh := rfl

@[simp] theorem drawn_ttbr (s : State) :
    (drawn s).ttbr = s.ttbr := rfl

@[simp] theorem drawn_abortStatus (s : State) :
    (drawn s).abortStatus = s.abortStatus := rfl

@[simp] theorem drawn_domainControl (s : State) :
    (drawn s).domainControl = s.domainControl := rfl

@[simp] theorem drawn_otherControl (s : State) :
    (drawn s).otherControl = s.otherControl := rfl

@[simp] theorem drawn_tlbs (s : State) :
    (drawn s).tlbs = s.tlbs := rfl

@[simp] theorem drawn_mem (s : State) :
    (drawn s).mem = s.mem := rfl

@[simp] theorem drawn_walkVa (s : State) :
    (drawn s).walkVa = s.walkVa := rfl

@[simp] theorem drawn_walkActive (s : State) :
    (drawn s).walkActive = s.walkActive := rfl

@[simp] theorem drawn_walkResult (s : State) :
    (drawn s).walkResult = s.walkResult := rfl

@[simp] theorem drawn_inputs (s : State) :
    (drawn s).inputs = s.inputs := rfl

@[simp] theorem drawn_response (s : State) :
    (drawn s).response = s.response := rfl

@[simp] theorem drawn_draws (s : State) :
    (drawn s).draws = s.draws + 1 := rfl

/-! ## `finishWalk` -/

@[simp] theorem finishWalk_cfg (r : WalkResult) (s : State) :
    (finishWalk r s).cfg = s.cfg := rfl

@[simp] theorem finishWalk_m (r : WalkResult) (s : State) :
    (finishWalk r s).m = s.m := rfl

@[simp] theorem finishWalk_controlHigh (r : WalkResult) (s : State) :
    (finishWalk r s).controlHigh = s.controlHigh := rfl

@[simp] theorem finishWalk_ttbr (r : WalkResult) (s : State) :
    (finishWalk r s).ttbr = s.ttbr := rfl

@[simp] theorem finishWalk_abortStatus (r : WalkResult) (s : State) :
    (finishWalk r s).abortStatus = s.abortStatus := rfl

@[simp] theorem finishWalk_domainControl (r : WalkResult) (s : State) :
    (finishWalk r s).domainControl = s.domainControl := rfl

@[simp] theorem finishWalk_otherControl (r : WalkResult) (s : State) :
    (finishWalk r s).otherControl = s.otherControl := rfl

@[simp] theorem finishWalk_tlbs (r : WalkResult) (s : State) :
    (finishWalk r s).tlbs = s.tlbs := rfl

@[simp] theorem finishWalk_mem (r : WalkResult) (s : State) :
    (finishWalk r s).mem = s.mem := rfl

@[simp] theorem finishWalk_walkVa (r : WalkResult) (s : State) :
    (finishWalk r s).walkVa = s.walkVa := rfl

@[simp] theorem finishWalk_walkActive (r : WalkResult) (s : State) :
    (finishWalk r s).walkActive = false := rfl

@[simp] theorem finishWalk_walkResult (r : WalkResult) (s : State) :
    (finishWalk r s).walkResult = some r := rfl

@[simp] theorem finishWalk_inputs (r : WalkResult) (s : State) :
    (finishWalk r s).inputs = s.inputs := rfl

@[simp] theorem finishWalk_response (r : WalkResult) (s : State) :
    (finishWalk r s).response = s.response := rfl

@[simp] theorem finishWalk_draws (r : WalkResult) (s : State) :
    (finishWalk r s).draws = s.draws := rfl

/-! ## `raiseAbort` -/

@[simp] theorem raiseAbort_cfg (a : Abort) (kind : AccessKind) (s : State) :
    (raiseAbort a kind s).cfg = s.cfg := rfl

@[simp] theorem raiseAbort_m (a : Abort) (kind : AccessKind) (s : State) :
    (raiseAbort a kind s).m = s.m := rfl

@[simp] theorem raiseAbort_controlHigh (a : Abort) (kind : AccessKind) (s : State) :
    (raiseAbort a kind s).controlHigh = s.controlHigh := rfl

@[simp] theorem raiseAbort_ttbr (a : Abort) (kind : AccessKind) (s : State) :
    (raiseAbort a kind s).ttbr = s.ttbr := rfl

@[simp] theorem raiseAbort_abortStatus (a : Abort) (kind : AccessKind) (s : State) :
    (raiseAbort a kind s).abortStatus = recordAbort s a kind := rfl

@[simp] theorem raiseAbort_domainControl (a : Abort) (kind : AccessKind) (s : State) :
    (raiseAbort a kind s).domainControl = s.domainControl := rfl

@[simp] theorem raiseAbort_otherControl (a : Abort) (kind : AccessKind) (s : State) :
    (raiseAbort a kind s).otherControl = s.otherControl := rfl

@[simp] theorem raiseAbort_tlbs (a : Abort) (kind : AccessKind) (s : State) :
    (raiseAbort a kind s).tlbs = s.tlbs := rfl

@[simp] theorem raiseAbort_mem (a : Abort) (kind : AccessKind) (s : State) :
    (raiseAbort a kind s).mem = s.mem := rfl

@[simp] theorem raiseAbort_walkVa (a : Abort) (kind : AccessKind) (s : State) :
    (raiseAbort a kind s).walkVa = s.walkVa := rfl

@[simp] theorem raiseAbort_walkActive (a : Abort) (kind : AccessKind) (s : State) :
    (raiseAbort a kind s).walkActive = s.walkActive := rfl

@[simp] theorem raiseAbort_walkResult (a : Abort) (kind : AccessKind) (s : State) :
    (raiseAbort a kind s).walkResult = s.walkResult := rfl

@[simp] theorem raiseAbort_inputs (a : Abort) (kind : AccessKind) (s : State) :
    (raiseAbort a kind s).inputs = s.inputs := rfl

@[simp] theorem raiseAbort_response (a : Abort) (kind : AccessKind) (s : State) :
    (raiseAbort a kind s).response = some (.abort a) := rfl

@[simp] theorem raiseAbort_draws (a : Abort) (kind : AccessKind) (s : State) :
    (raiseAbort a kind s).draws = s.draws := rfl

/-! ## `fillTlb` -/

@[simp] theorem fillTlb_cfg (kind : AccessKind) (x : Slot) (s : State) :
    (fillTlb kind x s).cfg = s.cfg := rfl

@[simp] theorem fillTlb_m (kind : AccessKind) (x : Slot) (s : State) :
    (fillTlb kind x s).m = s.m := rfl

@[simp] theorem fillTlb_controlHigh (kind : AccessKind) (x : Slot) (s : State) :
    (fillTlb kind x s).controlHigh = s.controlHigh := rfl

@[simp] theorem fillTlb_ttbr (kind : AccessKind) (x : Slot) (s : State) :
    (fillTlb kind x s).ttbr = s.ttbr := rfl

@[simp] theorem fillTlb_abortStatus (kind : AccessKind) (x : Slot) (s : State) :
    (fillTlb kind x s).abortStatus = s.abortStatus := rfl

@[simp] theorem fillTlb_domainControl (kind : AccessKind) (x : Slot) (s : State) :
    (fillTlb kind x s).domainControl = s.domainControl := rfl

@[simp] theorem fillTlb_otherControl (kind : AccessKind) (x : Slot) (s : State) :
    (fillTlb kind x s).otherControl = s.otherControl := rfl

@[simp] theorem fillTlb_mem (kind : AccessKind) (x : Slot) (s : State) :
    (fillTlb kind x s).mem = s.mem := rfl

@[simp] theorem fillTlb_walkVa (kind : AccessKind) (x : Slot) (s : State) :
    (fillTlb kind x s).walkVa = s.walkVa := rfl

@[simp] theorem fillTlb_walkActive (kind : AccessKind) (x : Slot) (s : State) :
    (fillTlb kind x s).walkActive = s.walkActive := rfl

@[simp] theorem fillTlb_walkResult (kind : AccessKind) (x : Slot) (s : State) :
    (fillTlb kind x s).walkResult = s.walkResult := rfl

@[simp] theorem fillTlb_inputs (kind : AccessKind) (x : Slot) (s : State) :
    (fillTlb kind x s).inputs = s.inputs := rfl

@[simp] theorem fillTlb_response (kind : AccessKind) (x : Slot) (s : State) :
    (fillTlb kind x s).response = s.response := rfl

@[simp] theorem fillTlb_draws (kind : AccessKind) (x : Slot) (s : State) :
    (fillTlb kind x s).draws = s.draws := rfl

/-! ## `accessOff` -/

@[simp] theorem accessOff_cfg (kind : AccessKind) (va : Word) (s : State) :
    (accessOff kind va s).cfg = s.cfg := rfl

@[simp] theorem accessOff_m (kind : AccessKind) (va : Word) (s : State) :
    (accessOff kind va s).m = s.m := rfl

@[simp] theorem accessOff_controlHigh (kind : AccessKind) (va : Word) (s : State) :
    (accessOff kind va s).controlHigh = s.controlHigh := rfl

@[simp] theorem accessOff_ttbr (kind : AccessKind) (va : Word) (s : State) :
    (accessOff kind va s).ttbr = s.ttbr := rfl

@[simp] theorem accessOff_abortStatus (kind : AccessKind) (va : Word) (s : State) :
    (accessOff kind va s).abortStatus = s.abortStatus := rfl

@[simp] theorem accessOff_domainControl (kind : AccessKind) (va : Word) (s : State) :
    (accessOff kind va s).domainControl = s.domainControl := rfl

@[simp] theorem accessOff_otherControl (kind : AccessKind) (va : Word) (s : State) :
    (accessOff kind va s).otherControl = s.otherControl := rfl

@[simp] theorem accessOff_tlbs (kind : AccessKind) (va : Word) (s : State) :
    (accessOff kind va s).tlbs = s.tlbs := rfl

@[simp] theorem accessOff_mem (kind : AccessKind) (va : Word) (s : State) :
    (accessOff kind va s).mem = s.mem := rfl

@[simp] theorem accessOff_walkVa (kind : AccessKind) (va : Word) (s : State) :
    (accessOff kind va s).walkVa = s.walkVa := rfl

@[simp] theorem accessOff_walkActive (kind : AccessKind) (va : Word) (s : State) :
    (accessOff kind va s).walkActive = s.walkActive := rfl

@[simp] theorem accessOff_walkResult (kind : AccessKind) (va : Word) (s : State) :
    (accessOff kind va s).walkResult = s.walkResult := rfl

@[simp] theorem accessOff_inputs (kind : AccessKind) (va : Word) (s : State) :
    (accessOff kind va s).inputs = s.inputs := rfl

@[simp] theorem accessOff_response (kind : AccessKind) (va : Word) (s : State) :
    (accessOff kind va s).response = some (.proceed va (cOff s.cfg s.tlbs.isSplit kind) (bOff kind)) := rfl

@[simp] theorem accessOff_draws (kind : AccessKind) (va : Word) (s : State) :
    (accessOff kind va s).draws = s.draws := rfl

/-! ## `keepFault` -/

@[simp] theorem keepFault_cfg (kind : AccessKind) (level : Level) (va : Word) (s : State) :
    (keepFault kind level va s).cfg = s.cfg := by
  unfold keepFault; split
  · split <;> rfl
  · rfl

@[simp] theorem keepFault_m (kind : AccessKind) (level : Level) (va : Word) (s : State) :
    (keepFault kind level va s).m = s.m := by
  unfold keepFault; split
  · split <;> rfl
  · rfl

@[simp] theorem keepFault_controlHigh (kind : AccessKind) (level : Level) (va : Word) (s : State) :
    (keepFault kind level va s).controlHigh = s.controlHigh := by
  unfold keepFault; split
  · split <;> rfl
  · rfl

@[simp] theorem keepFault_ttbr (kind : AccessKind) (level : Level) (va : Word) (s : State) :
    (keepFault kind level va s).ttbr = s.ttbr := by
  unfold keepFault; split
  · split <;> rfl
  · rfl

@[simp] theorem keepFault_abortStatus (kind : AccessKind) (level : Level) (va : Word) (s : State) :
    (keepFault kind level va s).abortStatus = s.abortStatus := by
  unfold keepFault; split
  · split <;> rfl
  · rfl

@[simp] theorem keepFault_domainControl (kind : AccessKind) (level : Level) (va : Word) (s : State) :
    (keepFault kind level va s).domainControl = s.domainControl := by
  unfold keepFault; split
  · split <;> rfl
  · rfl

@[simp] theorem keepFault_otherControl (kind : AccessKind) (level : Level) (va : Word) (s : State) :
    (keepFault kind level va s).otherControl = s.otherControl := by
  unfold keepFault; split
  · split <;> rfl
  · rfl

@[simp] theorem keepFault_mem (kind : AccessKind) (level : Level) (va : Word) (s : State) :
    (keepFault kind level va s).mem = s.mem := by
  unfold keepFault; split
  · split <;> rfl
  · rfl

@[simp] theorem keepFault_walkVa (kind : AccessKind) (level : Level) (va : Word) (s : State) :
    (keepFault kind level va s).walkVa = s.walkVa := by
  unfold keepFault; split
  · split <;> rfl
  · rfl

@[simp] theorem keepFault_walkActive (kind : AccessKind) (level : Level) (va : Word) (s : State) :
    (keepFault kind level va s).walkActive = s.walkActive := by
  unfold keepFault; split
  · split <;> rfl
  · rfl

@[simp] theorem keepFault_walkResult (kind : AccessKind) (level : Level) (va : Word) (s : State) :
    (keepFault kind level va s).walkResult = s.walkResult := by
  unfold keepFault; split
  · split <;> rfl
  · rfl

@[simp] theorem keepFault_inputs (kind : AccessKind) (level : Level) (va : Word) (s : State) :
    (keepFault kind level va s).inputs = s.inputs := by
  unfold keepFault; split
  · split <;> rfl
  · rfl

@[simp] theorem keepFault_response (kind : AccessKind) (level : Level) (va : Word) (s : State) :
    (keepFault kind level va s).response = s.response := by
  unfold keepFault; split
  · split <;> rfl
  · rfl

@[simp] theorem keepFault_draws (kind : AccessKind) (level : Level) (va : Word) (s : State) :
    (keepFault kind level va s).draws = s.draws := by
  unfold keepFault; split
  · split <;> rfl
  · rfl

/-! ## `finishAccess` -/

@[simp] theorem finishAccess_cfg (kind : AccessKind) (va : Word) (priv : Priv) (e : TlbEntry) (s : State) :
    (finishAccess kind va priv e s).cfg = s.cfg := by
  unfold finishAccess; split <;> rfl

@[simp] theorem finishAccess_m (kind : AccessKind) (va : Word) (priv : Priv) (e : TlbEntry) (s : State) :
    (finishAccess kind va priv e s).m = s.m := by
  unfold finishAccess; split <;> rfl

@[simp] theorem finishAccess_controlHigh (kind : AccessKind) (va : Word) (priv : Priv) (e : TlbEntry) (s : State) :
    (finishAccess kind va priv e s).controlHigh = s.controlHigh := by
  unfold finishAccess; split <;> rfl

@[simp] theorem finishAccess_ttbr (kind : AccessKind) (va : Word) (priv : Priv) (e : TlbEntry) (s : State) :
    (finishAccess kind va priv e s).ttbr = s.ttbr := by
  unfold finishAccess; split <;> rfl

@[simp] theorem finishAccess_domainControl (kind : AccessKind) (va : Word) (priv : Priv) (e : TlbEntry) (s : State) :
    (finishAccess kind va priv e s).domainControl = s.domainControl := by
  unfold finishAccess; split <;> rfl

@[simp] theorem finishAccess_otherControl (kind : AccessKind) (va : Word) (priv : Priv) (e : TlbEntry) (s : State) :
    (finishAccess kind va priv e s).otherControl = s.otherControl := by
  unfold finishAccess; split <;> rfl

@[simp] theorem finishAccess_tlbs (kind : AccessKind) (va : Word) (priv : Priv) (e : TlbEntry) (s : State) :
    (finishAccess kind va priv e s).tlbs = s.tlbs := by
  unfold finishAccess; split <;> rfl

@[simp] theorem finishAccess_mem (kind : AccessKind) (va : Word) (priv : Priv) (e : TlbEntry) (s : State) :
    (finishAccess kind va priv e s).mem = s.mem := by
  unfold finishAccess; split <;> rfl

@[simp] theorem finishAccess_walkVa (kind : AccessKind) (va : Word) (priv : Priv) (e : TlbEntry) (s : State) :
    (finishAccess kind va priv e s).walkVa = s.walkVa := by
  unfold finishAccess; split <;> rfl

@[simp] theorem finishAccess_walkActive (kind : AccessKind) (va : Word) (priv : Priv) (e : TlbEntry) (s : State) :
    (finishAccess kind va priv e s).walkActive = s.walkActive := by
  unfold finishAccess; split <;> rfl

@[simp] theorem finishAccess_walkResult (kind : AccessKind) (va : Word) (priv : Priv) (e : TlbEntry) (s : State) :
    (finishAccess kind va priv e s).walkResult = s.walkResult := by
  unfold finishAccess; split <;> rfl

@[simp] theorem finishAccess_inputs (kind : AccessKind) (va : Word) (priv : Priv) (e : TlbEntry) (s : State) :
    (finishAccess kind va priv e s).inputs = s.inputs := by
  unfold finishAccess; split <;> rfl

@[simp] theorem finishAccess_draws (kind : AccessKind) (va : Word) (priv : Priv) (e : TlbEntry) (s : State) :
    (finishAccess kind va priv e s).draws = s.draws := by
  unfold finishAccess; split <;> rfl

end Sys2Proof.Machine
end

