-- ==== Sys2Proof/Laws/Tlb.lean ====
section
/-! SUPPORT. The TLB operations: what a choice, a fill and a flush can do (R116, R117, R144). -/

namespace Sys2Proof.Machine

/-! ## Choices -/

/-- A choice is a member of the list. -/
theorem pick_mem {α : Type} {n : Nat} {l : List α} {x : α} (h : pick n l = some x) : x ∈ l := by
  match l, h with
  | [y], h => simp [pick] at h; simp [h]
  | y :: z :: rest, h =>
    simp only [pick] at h
    exact List.mem_of_getElem? h

/-- There is a choice exactly when the list is not empty. -/
theorem pick_eq_none {α : Type} {n : Nat} {l : List α} : pick n l = none ↔ l = [] := by
  match l with
  | [] => simp [pick]
  | [y] => simp [pick]
  | y :: z :: rest =>
    have : n % (rest.length + 2) < (y :: z :: rest).length := by
      simp only [List.length_cons]; exact Nat.mod_lt _ (by omega)
    simp [pick, List.getElem?_eq_getElem this]

/-- A slot number is replaceable when it is one of the TLB's and not locked (R116). -/
theorem mem_replaceable {slots : List Slot} {i : Nat} :
    i ∈ replaceable slots ↔ i < slots.length ∧ (slots.getD i .unused).isLocked = false := by
  simp [replaceable]

theorem replaceable_eq_nil {slots : List Slot} : replaceable slots = [] ↔ ∀ x ∈ slots, x.isLocked = true := by
  constructor
  · intro h x hx
    obtain ⟨i, hi, rfl⟩ := List.getElem_of_mem hx
    by_contra hl
    have : i ∈ replaceable slots := mem_replaceable.mpr ⟨hi, by simpa [List.getD, hi] using hl⟩
    simp [h] at this
  · intro h
    by_contra hne
    obtain ⟨i, hi⟩ := List.exists_mem_of_ne_nil _ hne
    obtain ⟨hlt, hl⟩ := mem_replaceable.mp hi
    have := h slots[i] (List.getElem_mem hlt)
    simp [List.getD, hlt, this] at hl

/-- All a placement can do (R116): one replaceable slot holds `x`, or there is none and nothing changes. -/
theorem place_filledWith (n : Nat) (slots : List Slot) (x : Slot) : FilledWith slots (place n slots x) x := by
  unfold place
  cases h : pick n (replaceable slots) with
  | none => exact .inr ⟨replaceable_eq_nil.mp (pick_eq_none.mp h), rfl⟩
  | some i =>
    obtain ⟨hi, hl⟩ := mem_replaceable.mp (pick_mem h)
    exact .inl ⟨i, hi, hl, rfl⟩

theorem FilledWith.length_eq {old new : List Slot} {x : Slot} (h : FilledWith old new x) : new.length = old.length := by
  rcases h with ⟨i, _, _, rfl⟩ | ⟨_, rfl⟩ <;> simp

/-- Every slot of the filled TLB is an old one or the new content. -/
theorem FilledWith.mem {old new : List Slot} {x y : Slot} (h : FilledWith old new x) (hy : y ∈ new) : y = x ∨ y ∈ old := by
  rcases h with ⟨i, _, _, rfl⟩ | ⟨_, rfl⟩
  · exact (List.mem_or_eq_of_mem_set hy).symm
  · exact .inr hy

/-- A locked slot stays through a fill (R117). -/
theorem FilledWith.locked {old new : List Slot} {x y : Slot} {j : Nat} (h : FilledWith old new x)
    (hj : old[j]? = some y) (hy : y.isLocked = true) : new[j]? = some y := by
  rcases h with ⟨i, hi, hl, rfl⟩ | ⟨_, rfl⟩
  · rw [List.getElem?_set_ne, hj]
    rintro rfl
    simp [List.getD, hj, hy] at hl
  · exact hj

theorem length_place (n : Nat) (slots : List Slot) (x : Slot) : (place n slots x).length = slots.length :=
  (place_filledWith n slots x).length_eq

/-! ## The TLB an access uses -/

@[simp] theorem Tlbs.has_nameFor (t : Tlbs) (kind : AccessKind) : t.has (t.nameFor kind) = true := by
  cases t <;> cases kind <;> rfl

@[simp] theorem Tlbs.slots_withSlots_same {t : Tlbs} {n : TlbName} (h : t.has n = true) (x : List Slot) :
    (t.withSlots n x).slots n = x := by
  cases t <;> cases n <;> first | rfl | cases h

theorem Tlbs.slots_withSlots_other {t : Tlbs} {n n' : TlbName} (h : n' ≠ n) (x : List Slot) :
    (t.withSlots n x).slots n' = t.slots n' := by
  cases t <;> cases n <;> cases n' <;> first | rfl | exact absurd rfl h

@[simp] theorem Tlbs.nameFor_withSlots (t : Tlbs) (n : TlbName) (x : List Slot) (kind : AccessKind) :
    (t.withSlots n x).nameFor kind = t.nameFor kind := by
  cases t <;> cases n <;> cases kind <;> rfl

@[simp] theorem Tlbs.isSplit_withSlots (t : Tlbs) (n : TlbName) (x : List Slot) :
    (t.withSlots n x).isSplit = t.isSplit := by
  cases t <;> cases n <;> rfl

/-- Every slot after a change of one TLB is one of the new slots or was there before. -/
theorem Tlbs.mem_allSlots_withSlots {t : Tlbs} {n : TlbName} {x : List Slot} {y : Slot}
    (h : y ∈ (t.withSlots n x).allSlots) : y ∈ x ∨ y ∈ t.allSlots := by
  cases t <;> cases n <;> simp only [Tlbs.withSlots, Tlbs.allSlots, List.mem_append] at * <;> tauto

theorem Tlbs.mem_allSlots_of_slots {t : Tlbs} {n : TlbName} {y : Slot} (h : y ∈ t.slots n) : y ∈ t.allSlots := by
  cases t <;> cases n <;> simp_all [Tlbs.slots, Tlbs.allSlots]

/-- A slot of some TLB of the system is a slot of a named one. -/
theorem Tlbs.mem_allSlots {t : Tlbs} {y : Slot} : y ∈ t.allSlots ↔ ∃ n, y ∈ t.slots n := by
  constructor
  · intro h
    cases t with
    | unified u => exact ⟨.unified, h⟩
    | split i d =>
      rcases List.mem_append.mp h with h | h
      · exact ⟨.instruction, h⟩
      · exact ⟨.data, h⟩
  · rintro ⟨n, h⟩
    exact mem_allSlots_of_slots h

theorem Tlbs.slots_map {f : List Slot → List Slot} (hf : f [] = []) (t : Tlbs) (n : TlbName) :
    (t.map f).slots n = f (t.slots n) := by
  cases t <;> cases n <;> simp [Tlbs.map, Tlbs.slots, hf]

/-! ## Fill, fault mark, flush -/

/-- All a fill can do (R113, R116): the TLB the access uses is filled, every other is as it was. -/
theorem fillTlb_slots (kind : AccessKind) (x : Slot) (s : State) :
    FilledWith (s.slotsFor kind) ((fillTlb kind x s).slotsFor kind) x ∧
      ∀ n, n ≠ s.tlbs.nameFor kind → (fillTlb kind x s).tlbs.slots n = s.tlbs.slots n := by
  refine ⟨?_, fun n hn => Tlbs.slots_withSlots_other hn _⟩
  simp only [State.slotsFor, fillTlb, Tlbs.nameFor_withSlots, Tlbs.slots_withSlots_same (Tlbs.has_nameFor _ _)]
  exact place_filledWith _ _ _

/-- All that keeping a fault mark can do (R116). -/
theorem keepFault_cases (kind : AccessKind) (level : Level) (va : Word) (s : State) :
    keepFault kind level va s = s ∨
      (level = .sect ∧ s.cfg.tlbCachesFaults = true ∧
        keepFault kind level va s = fillTlb kind (.faultMark (regionBase .sect va)) s) := by
  unfold keepFault
  cases level with
  | page => exact .inl rfl
  | sect =>
    dsimp only
    split
    · rename_i h
      simp only [Bool.and_eq_true] at h
      exact .inr ⟨rfl, h.1, rfl⟩
    · exact .inl rfl

theorem flushSlots_nil (r : Bool) : flushSlots r [] = [] := rfl

theorem mem_flushSlots {r : Bool} {slots : List Slot} {y : Slot} (h : y ∈ flushSlots r slots) :
    y = .unused ∨ (y ∈ slots ∧ y.isLocked = true ∧ r = false) := by
  simp only [flushSlots, List.mem_map] at h
  obtain ⟨x, hx, rfl⟩ := h
  split
  · rename_i hc
    simp only [Bool.and_eq_true, Bool.not_eq_true'] at hc
    exact .inr ⟨hx, hc.1, hc.2⟩
  · exact .inl rfl

/-- No slot of the TLB matches: a miss (R115). -/
theorem hits_eq_nil {slots : List Slot} {va : Word} : hits slots va = [] ↔ ∀ x ∈ slots, x.covers va = false := by
  simp [hits, List.filter_eq_nil_iff]

theorem mem_hits {slots : List Slot} {va : Word} {x : Slot} : x ∈ hits slots va ↔ x ∈ slots ∧ x.covers va = true := by
  simp [hits]

end Sys2Proof.Machine
end

