-- ==== Sys2Proof/Laws/Bits.lean ====
section
/-! SUPPORT. Bit-field facts: byte order is a bijection (R55), the kind bits of the encoded descriptors (R86), and the
region arithmetic of R30 and R120. -/

namespace Sys2Proof

open Sys2Proof.Machine

/-- A word cut into its four byte fields and joined again. -/
theorem byteFields_append (w : Word) :
    w.extractLsb' 24 8 ++ w.extractLsb' 16 8 ++ w.extractLsb' 8 8 ++ w.extractLsb' 0 8 = w := by
  rw [BitVec.extractLsb'_append_extractLsb'_eq_extractLsb' (start₂ := 24) (start₁ := 16) (len₁ := 8) rfl,
    BitVec.extractLsb'_append_extractLsb'_eq_extractLsb' (start₂ := 16) (start₁ := 8) (len₁ := 8) rfl,
    BitVec.extractLsb'_append_extractLsb'_eq_extractLsb' (start₂ := 8) (start₁ := 0) (len₁ := 8) rfl]
  exact BitVec.extractLsb'_eq_self

/-- The four bytes of a word make it again, in either byte order (R55). -/
theorem wordOfBytes_bytesOfWord (e : Config.Endian) (w : Word) :
    ∃ b0 b1 b2 b3, bytesOfWord e w = [b0, b1, b2, b3] ∧ wordOfBytes e b0 b1 b2 b3 = w := by
  cases e <;> exact ⟨_, _, _, _, rfl, byteFields_append w⟩

/-- `decodeBytes` reads the word that was laid out. -/
theorem decodeBytes_bytesOfWord (e : Config.Endian) (w : Word) (rest : List Byte) :
    decodeBytes e (bytesOfWord e w ++ rest) = .ok ((decodeDescriptor w).toInstr, rest) := by
  obtain ⟨b0, b1, b2, b3, hb, hw⟩ := wordOfBytes_bytesOfWord e w
  simp [hb, decodeBytes, hw]

@[simp] theorem kindBits_faultWord (ignored : BitVec 30) : kindBits (faultWord ignored) = 0b00#2 :=
  BitVec.extractLsb'_append_eq_right

@[simp] theorem kindBits_coarseWord (base : BitVec 22) (sbz : BitVec 1) (domain : BitVec 4) (imp : BitVec 3) :
    kindBits (coarseWord base sbz domain imp) = 0b01#2 :=
  BitVec.extractLsb'_append_eq_right

@[simp] theorem kindBits_sectionWord (base : BitVec 12) (sbzHi : BitVec 8) (ap : BitVec 2) (sbzLo : BitVec 1)
    (domain : BitVec 4) (imp c b : BitVec 1) :
    kindBits (sectionWord base sbzHi ap sbzLo domain imp c b) = 0b10#2 :=
  BitVec.extractLsb'_append_eq_right

@[simp] theorem kindBits_fineWord (base : BitVec 20) (sbz : BitVec 3) (domain : BitVec 4) (imp : BitVec 3) :
    kindBits (fineWord base sbz domain imp) = 0b11#2 :=
  BitVec.extractLsb'_append_eq_right

/-- Two bits take one of four values (R86). -/
theorem kindBits_cases (d : Word) :
    kindBits d = 0b00#2 ∨ kindBits d = 0b01#2 ∨ kindBits d = 0b10#2 ∨ kindBits d = 0b11#2 := by
  generalize kindBits d = k
  revert k; decide

/-- The domain field of an encoded coarse descriptor (R91). -/
theorem coarseWord_domain (base : BitVec 22) (sbz : BitVec 1) (domain : BitVec 4) (imp : BitVec 3) :
    (coarseWord base sbz domain imp).extractLsb' 5 4 = domain := by
  unfold coarseWord
  rw [BitVec.extractLsb'_append_eq_of_le (by decide), BitVec.extractLsb'_append_eq_of_le (by decide),
    BitVec.extractLsb'_append_eq_right]

/-- The domain field of an encoded fine descriptor (R91). -/
theorem fineWord_domain (base : BitVec 20) (sbz : BitVec 3) (domain : BitVec 4) (imp : BitVec 3) :
    (fineWord base sbz domain imp).extractLsb' 5 4 = domain := by
  unfold fineWord
  rw [BitVec.extractLsb'_append_eq_of_le (by decide), BitVec.extractLsb'_append_eq_of_le (by decide),
    BitVec.extractLsb'_append_eq_right]

/-- A high field of `x` joined to a low part: bit by bit. -/
theorem highField_append_getLsbD {n k : Nat} (x : Word) (lo : BitVec k) (i : Nat) (hi : i < n + k) :
    (x.extractLsb' k n ++ lo).getLsbD i = if i < k then lo.getLsbD i else x.getLsbD i := by
  rw [BitVec.getLsbD_append, BitVec.getLsbD_extractLsb']
  split
  · rfl
  · rename_i h
    have hk : k + (i - k) = i := by omega
    simp [hk, show i - k < n by omega]

/-- The region base has no offset bits left (R29: "aligned to size"). -/
theorem regionBase_aligned (size : RegionSize) (va : Word) : size.aligned (regionBase size va) = true := by
  cases size <;> exact beq_of_eq BitVec.extractLsb'_append_eq_right

/-- An address lies in the region it is the base of (R30). -/
theorem inRegion_iff (size : RegionSize) (vaBase va : Word) :
    inRegion size vaBase va = true ↔ va >>> size.log2 = vaBase >>> size.log2 := by
  simp [inRegion]

/-- The region base, bit by bit: the low bits cleared (R176). -/
theorem regionBase_getLsbD (size : RegionSize) (va : Word) (i : Nat) (hi : i < 32) :
    (regionBase size va).getLsbD i = if i < size.log2 then false else va.getLsbD i := by
  cases size <;> simp only [regionBase, RegionSize.log2] <;>
    rw [highField_append_getLsbD _ _ _ (by omega)] <;> split <;> simp_all

/-- The region base as a shift down and up. -/
theorem regionBase_eq_shift (size : RegionSize) (va : Word) :
    regionBase size va = (va >>> size.log2) <<< size.log2 := by
  apply BitVec.eq_of_getLsbD_eq
  intro i hi
  rw [regionBase_getLsbD size va i hi, BitVec.getLsbD_shiftLeft, BitVec.getLsbD_ushiftRight]
  by_cases h : i < size.log2
  · simp [h]
  · simp [h, hi, show size.log2 + (i - size.log2) = i by omega]

/-- Two addresses are in one region exactly when they have the same region base (R30). -/
theorem inRegion_regionBase (size : RegionSize) (va va' : Word) :
    inRegion size (regionBase size va) va' = true ↔ regionBase size va' = regionBase size va := by
  rw [inRegion_iff, regionBase_eq_shift, regionBase_eq_shift]
  constructor
  · intro h
    rw [h]
    apply BitVec.eq_of_getLsbD_eq
    intro i hi
    by_cases hk : i < size.log2 <;>
      simp [hk, hi, show ∀ j, ¬ j < size.log2 → size.log2 + (j - size.log2) = j by omega]
  · intro h
    rw [← h]
    apply BitVec.eq_of_getLsbD_eq
    intro i hi
    by_cases hk : size.log2 + i < 32
    · simp [hk]
    · simp [hk, BitVec.getLsbD_of_ge va' (size.log2 + i) (by omega)]

/-- The physical address, bit by bit: high part the region's, low part the virtual address's (R120). -/
theorem physicalAddress_getLsbD (e : TlbEntry) (va : Word) (i : Nat) (hi : i < 32) :
    (physicalAddress e va).getLsbD i = if i < e.size.log2 then va.getLsbD i else e.paBase.getLsbD i := by
  unfold physicalAddress
  cases e.size <;> simp only [RegionSize.log2] <;>
    rw [highField_append_getLsbD _ _ _ (by omega)] <;> split <;> simp_all

/-- A two-bit field depends only on the bits from it up. -/
theorem field2_eq_shift (w : Word) (k : Nat) : w.extractLsb' k 2 = (w >>> k).extractLsb' 0 2 := by
  ext i hi; simp

/-- The subpage of a small page is decided by the address above its 1 KB offset (R161). -/
theorem subpageNumber_small {va va' : Word} (h : va >>> 10 = va' >>> 10) :
    subpageNumber .small va = subpageNumber .small va' := by
  simp only [subpageNumber, field2_eq_shift _ 10, h]

/-- The subpage of a large page is decided by the address above its 16 KB offset (R161). -/
theorem subpageNumber_large {va va' : Word} (h : va >>> 14 = va' >>> 14) :
    subpageNumber .large va = subpageNumber .large va' := by
  simp only [subpageNumber, field2_eq_shift _ 14, h]

/-- An entry with one access-control field is checked with it everywhere (R119). -/
theorem apFor_whole {e : TlbEntry} {ap : BitVec 2} (h : e.ap = .whole ap) (va : Word) : apFor e va = ap := by
  simp [apFor, h, AccessBits.field]

end Sys2Proof
end

