-- ==== Sys2Proof/Laws/Walk.lean ====
section
/-! SUPPORT. What a walk can give (R163 to R176). -/

namespace Sys2Proof.Machine

/-- The entry of a section descriptor is legal (R29, R170). -/
theorem sectionEntry_legal (base : BitVec 12) (ap : BitVec 2) (domain : BitVec 4) (imp c b : BitVec 1) (va : Word) :
    (sectionEntry base ap domain imp c b va).legal = true := by
  have hpa : RegionSize.sect.aligned (base ++ 0#20) = true := beq_of_eq BitVec.extractLsb'_append_eq_right
  have hva := regionBase_aligned .sect va
  simp [TlbEntry.legal, sectionEntry, hpa, hva]

/-- All a page walk can give from what the second-level descriptor says (R176). -/
theorem pageResult_sound (kind : TableKind) (domain : BitVec 4) (imp : BitVec 3) (va : Word) (x : L2Descriptor) :
    (pageResult kind domain imp va x).sound := by
  have hva := fun size => regionBase_aligned size va
  have h16 : ∀ base : BitVec 16, RegionSize.large.aligned (base ++ 0#16) = true :=
    fun _ => beq_of_eq BitVec.extractLsb'_append_eq_right
  have h12 : ∀ base : BitVec 20, RegionSize.small.aligned (base ++ 0#12) = true :=
    fun _ => beq_of_eq BitVec.extractLsb'_append_eq_right
  have h10 : ∀ base : BitVec 22, RegionSize.tiny.aligned (base ++ 0#10) = true :=
    fun _ => beq_of_eq BitVec.extractLsb'_append_eq_right
  cases x with
  | fault => trivial
  | large base => simp [pageResult, WalkResult.sound, TlbEntry.legal, hva, h16]
  | small base => simp [pageResult, WalkResult.sound, TlbEntry.legal, hva, h12]
  | tiny base => cases kind <;> simp [pageResult, WalkResult.sound, TlbEntry.legal, hva, h10]
  | refused => trivial

/-- All `P_L2_WALK` can be (R123, R176): refused by name, or a page result. -/
theorem secondLevelWalk_cases (p : Config.Params) (mem : Memory) (kind : TableKind) (d : Word) (domain : BitVec 4)
    (imp : BitVec 3) (va : Word) :
    (∃ why, secondLevelWalk p mem kind d domain imp va = .refused why) ∨
      ∃ x, secondLevelWalk p mem kind d domain imp va = pageResult kind domain imp va x := by
  unfold secondLevelWalk
  split
  · exact .inl ⟨_, rfl⟩
  · exact .inr ⟨_, rfl⟩
  · split
    · exact .inl ⟨_, rfl⟩
    · exact .inr ⟨_, rfl⟩

theorem secondLevelWalk_sound (p : Config.Params) (mem : Memory) (kind : TableKind) (d : Word) (domain : BitVec 4)
    (imp : BitVec 3) (va : Word) : (secondLevelWalk p mem kind d domain imp va).sound := by
  rcases secondLevelWalk_cases p mem kind d domain imp va with ⟨why, h⟩ | ⟨x, h⟩ <;> rw [h]
  · trivial
  · exact pageResult_sound kind domain imp va x

theorem walkSection_sound (p : Config.Params) (base : BitVec 12) (sbzHi : BitVec 8) (ap : BitVec 2)
    (sbzLo : BitVec 1) (domain : BitVec 4) (imp c b : BitVec 1) (va : Word) :
    (walkSection p base sbzHi ap sbzLo domain imp c b va).sound := by
  unfold walkSection
  split
  · trivial
  · exact ⟨sectionEntry_legal base ap domain imp c b va, rfl⟩

theorem walkCoarse_sound (p : Config.Params) (mem : Memory) (base : BitVec 22) (sbz : BitVec 1) (domain : BitVec 4)
    (imp : BitVec 3) (va : Word) : (walkCoarse p mem base sbz domain imp va).sound := by
  unfold walkCoarse
  split
  · trivial
  · exact secondLevelWalk_sound ..

theorem walkFine_sound (p : Config.Params) (mem : Memory) (base : BitVec 20) (sbz : BitVec 3) (domain : BitVec 4)
    (imp : BitVec 3) (va : Word) : (walkFine p mem base sbz domain imp va).sound := by
  unfold walkFine
  split
  · trivial
  · exact secondLevelWalk_sound ..

/-- What any descriptor gives is sound (R29, R163). -/
theorem descriptorResult_sound (p : Config.Params) (mem : Memory) (va : Word) (d : Descriptor) :
    (descriptorResult p mem va d).sound := by
  cases d
  · trivial
  · exact walkCoarse_sound ..
  · exact walkSection_sound ..
  · exact walkFine_sound ..

theorem tableWalk_sound (s : State) (va : Word) : (tableWalk s va).sound := descriptorResult_sound ..

/-- A walk depends on the parameters, the table base and main memory only (R163). -/
theorem tableWalk_congr {s s' : State} (hc : s'.cfg = s.cfg) (ht : s'.ttbr = s.ttbr) (hm : s'.mem = s.mem) (va : Word) :
    tableWalk s' va = tableWalk s va := by
  simp [tableWalk, hc, ht, hm]

end Sys2Proof.Machine
end

