-- ==== Sys2Proof/Laws/Access.lean ====
section
/-! SUPPORT. All that an access and a lock can do: one inversion lemma each, cited instead of unfolding (R122, R146). -/

namespace Sys2Proof.Machine

/-- `M` is one bit: not 0 is 1 (R25). -/
theorem m_eq_one {s : State} (h : ¬ s.m = 0#1) : s.m = 1#1 := by
  generalize s.m = b at *
  revert b; decide

/-- What a miss gives (R115, R116, R122). -/
theorem accessMiss_cases {kind : AccessKind} {va : Word} {priv : Priv} {s t : State}
    (h : accessMiss kind va priv s = .next t) :
    (∃ e, tableWalk s va = .entry e ∧ t = drawn (finishAccess kind va priv e (fillTlb kind (.entry e) s))) ∨
      (∃ level domain, tableWalk s va = .fault level domain ∧
        t = drawn (raiseAbort ⟨.translation, level, va, domain⟩ kind (keepFault kind level va s))) := by
  unfold accessMiss at h
  split at h
  · rename_i level domain hw
    exact .inr ⟨level, domain, hw, (Host.Outcome.next.inj h).symm⟩
  · rename_i e hw
    exact .inl ⟨e, hw, (Host.Outcome.next.inj h).symm⟩
  · cases h

/-- All an access can do when it answers (R111, R122): disabled; a matching entry; a matching fault mark; a miss whose
walk gives an entry; a miss whose walk faults. -/
theorem access_cases {kind : AccessKind} {va : Word} {priv : Priv} {s t : State}
    (h : access kind va priv s = .next t) :
    (s.m = 0#1 ∧ t = accessOff kind va s) ∨
    (s.checks ∧
      ((∃ e, .entry e ∈ hits (s.slotsFor kind) va ∧ t = drawn (finishAccess kind va priv e s)) ∨
       (∃ base, .faultMark base ∈ hits (s.slotsFor kind) va ∧
          t = drawn (raiseAbort ⟨.translation, .sect, va, none⟩ kind s)) ∨
       (hits (s.slotsFor kind) va = [] ∧
          ((∃ e, tableWalk s va = .entry e ∧ t = drawn (finishAccess kind va priv e (fillTlb kind (.entry e) s))) ∨
           (∃ level domain, tableWalk s va = .fault level domain ∧
              t = drawn (raiseAbort ⟨.translation, level, va, domain⟩ kind (keepFault kind level va s))))))) := by
  unfold access at h
  split at h
  · rename_i hm
    exact .inl ⟨hm, (Host.Outcome.next.inj h).symm⟩
  · rename_i hm
    unfold accessOn at h
    split at h
    · cases h
    · rename_i hp
      refine .inr ⟨⟨m_eq_one hm, hp⟩, ?_⟩
      split at h
      · rename_i e he
        exact .inl ⟨e, pick_mem he, (Host.Outcome.next.inj h).symm⟩
      · rename_i base he
        exact .inr (.inl ⟨base, pick_mem he, (Host.Outcome.next.inj h).symm⟩)
      · rename_i he
        have := (mem_hits.mp (pick_mem he)).2
        cases this
      · rename_i he
        exact .inr (.inr ⟨pick_eq_none.mp he, accessMiss_cases h⟩)

/-- A hit answers from one of the matching slots (R114, R124). -/
theorem accessOn_hit {kind : AccessKind} {va : Word} {priv : Priv} {s : State} (hp : s.cfg.perm ≠ .uninstantiated)
    (hh : hits (s.slotsFor kind) va ≠ []) :
    (∃ e, .entry e ∈ hits (s.slotsFor kind) va ∧
        accessOn kind va priv s = .next (drawn (finishAccess kind va priv e s))) ∨
      (∃ base, .faultMark base ∈ hits (s.slotsFor kind) va ∧
        accessOn kind va priv s = .next (drawn (raiseAbort ⟨.translation, .sect, va, none⟩ kind s))) := by
  cases hx : pick (Config.hitChoice s.draws) (hits (s.slotsFor kind) va) with
  | none => exact absurd (pick_eq_none.mp hx) hh
  | some x =>
    have hmem := pick_mem hx
    unfold State.slotsFor at hx hmem
    cases x with
    | unused => cases (mem_hits.mp hmem).2
    | entry e => exact .inl ⟨e, hmem, by simp [accessOn, hp, hx]⟩
    | faultMark base => exact .inr ⟨base, hmem, by simp [accessOn, hp, hx]⟩

/-- With no matching slot the access is the miss (R115). -/
theorem accessOn_miss {kind : AccessKind} {va : Word} {priv : Priv} {s : State} (hp : s.cfg.perm ≠ .uninstantiated)
    (hh : hits (s.slotsFor kind) va = []) : accessOn kind va priv s = accessMiss kind va priv s := by
  unfold State.slotsFor at hh
  simp [accessOn, hp, hh, pick]

/-- The answer of the use of an entry (R118 to R120). -/
theorem finishAccess_response (kind : AccessKind) (va : Word) (priv : Priv) (e : TlbEntry) (s : State) :
    (finishAccess kind va priv e s).response = some (s.entryAnswer kind va priv e) := by
  unfold finishAccess State.entryAnswer
  split <;> rename_i h <;> simp [h]

/-- `AbortStatus` after the use of an entry (R195). -/
theorem finishAccess_abortStatus (kind : AccessKind) (va : Word) (priv : Priv) (e : TlbEntry) (s : State) :
    (finishAccess kind va priv e s).abortStatus = s.statusAfter kind (s.entryAnswer kind va priv e) := by
  unfold finishAccess State.entryAnswer
  split <;> rename_i h <;> simp [h, State.statusAfter]

/-- All a lock can do when it answers (R146): nothing, if the walk faults; else one replaceable slot holds the entry,
locked. -/
theorem execTlbLock_cases {n : TlbName} {va : Word} {s t : State} (h : execTlbLock n va s = .next t) :
    s.cfg.tlbLockdown = true ∧ s.m = 1#1 ∧ s.tlbs.has n = true ∧
      ((∃ level domain, tableWalk s va = .fault level domain ∧ t = answer .done s) ∨
       (∃ e i, tableWalk s va = .entry e ∧ i < (s.tlbs.slots n).length ∧
          ((s.tlbs.slots n).getD i .unused).isLocked = false ∧
          t = drawn (answer .done { s with
            tlbs := s.tlbs.withSlots n ((s.tlbs.slots n).set i (.entry { e with locked := true })) }))) := by
  unfold execTlbLock at h
  split at h
  · cases h
  rename_i hl
  split at h
  · cases h
  rename_i hm
  split at h
  · cases h
  rename_i hn
  refine ⟨by simpa using hl, m_eq_one hm, by simpa using hn, ?_⟩
  split at h
  · rename_i level domain hw
    exact .inl ⟨level, domain, hw, (Host.Outcome.next.inj h).symm⟩
  · cases h
  · rename_i e hw
    unfold lockInto at h
    split at h
    · cases h
    · rename_i i hi
      obtain ⟨hlt, hfree⟩ := mem_replaceable.mp (pick_mem hi)
      exact .inr ⟨e, i, hw, hlt, hfree, (Host.Outcome.next.inj h).symm⟩

/-- Each access instruction is `access` of its kind (R110). -/
theorem exec_accessInstr (kind : AccessKind) (va : Word) (priv : Priv) (s : State) :
    exec (accessInstr kind va priv) s = access kind va priv s := by
  cases kind <;> rfl

end Sys2Proof.Machine
end

