-- ==== Sys2Proof/Laws/Memory.lean ====
section
/-! SUPPORT. Main memory: a byte read after a byte stored, and the canonical form kept by every memory operation
(log entry 4). -/

namespace Sys2Proof.Machine

theorem Memory.lookup_insert_same (mem : Memory) (a : Nat) (v : Byte) :
    Memory.lookup (Memory.insert mem a v) a = some v := by
  induction mem with
  | nil => simp [Memory.insert, Memory.lookup]
  | cons x rest ih =>
    obtain ⟨k, w⟩ := x
    simp only [Memory.insert]
    split
    · simp [Memory.lookup]
    · split
      · simp [Memory.lookup]
      · rename_i h
        simp [Memory.lookup, Ne.symm h, ih]

theorem Memory.lookup_insert_other (mem : Memory) (a c : Nat) (v : Byte) (h : c ≠ a) :
    Memory.lookup (Memory.insert mem a v) c = Memory.lookup mem c := by
  induction mem with
  | nil => simp [Memory.insert, Memory.lookup, Ne.symm h]
  | cons x rest ih =>
    obtain ⟨k, w⟩ := x
    simp only [Memory.insert]
    split
    · simp [Memory.lookup, Ne.symm h]
    · split
      · rename_i hak
        simp [Memory.lookup, hak.symm, Ne.symm h]
      · simp [Memory.lookup, ih]

/-- Every address of the new memory is an old one or the one stored to. -/
theorem Memory.mem_insert {mem : Memory} {a : Nat} {v : Byte} {x : Host.Cell}
    (h : x ∈ Memory.insert mem a v) : x = (a, v) ∨ x ∈ mem := by
  induction mem with
  | nil => simpa [Memory.insert] using h
  | cons y rest ih =>
    obtain ⟨k, w⟩ := y
    simp only [Memory.insert] at h
    split at h
    · simpa using h
    · split at h
      · rcases List.mem_cons.mp h with h | h
        · exact .inl h
        · exact .inr (List.mem_cons_of_mem _ h)
      · rcases List.mem_cons.mp h with h | h
        · exact .inr (h ▸ List.mem_cons_self)
        · exact (ih h).imp_right (List.mem_cons_of_mem _)

theorem Memory.wf_insert {mem : Memory} (hm : Memory.wf mem) {a : Nat} (ha : a < 2 ^ 32) (v : Byte) :
    Memory.wf (Memory.insert mem a v) := by
  refine ⟨?_, fun x hx => ?_⟩
  · have hs := hm.1
    clear hm
    induction mem with
    | nil => simp [Memory.insert]
    | cons y rest ih =>
      obtain ⟨k, w⟩ := y
      have hy := List.pairwise_cons.mp hs
      simp only [Memory.insert]
      split
      · rename_i hak
        refine List.pairwise_cons.mpr ⟨fun x hx => ?_, hs⟩
        rcases List.mem_cons.mp hx with rfl | hx
        · exact hak
        · exact Nat.lt_trans hak (hy.1 x hx)
      · split
        · rename_i hak
          exact List.pairwise_cons.mpr ⟨fun x hx => hak ▸ hy.1 x hx, hy.2⟩
        · rename_i hlt hne
          refine List.pairwise_cons.mpr ⟨fun x hx => ?_, ih hy.2⟩
          rcases Memory.mem_insert hx with rfl | hx
          · exact Nat.lt_of_le_of_ne (Nat.le_of_not_lt hlt) (Ne.symm hne)
          · exact hy.1 x hx
  · rcases Memory.mem_insert hx with rfl | hx
    · exact ha
    · exact hm.2 x hx

theorem wf_storeByte {mem : Memory} (hm : Memory.wf mem) (a : Word) (b : Byte) : Memory.wf (storeByte mem a b) :=
  Memory.wf_insert hm a.isLt b

theorem wf_storeBytes {mem : Memory} (hm : Memory.wf mem) (a : Word) (bs : List Byte) :
    Memory.wf (storeBytes mem a bs) := by
  induction bs generalizing mem a with
  | nil => exact hm
  | cons b rest ih => exact ih (wf_storeByte hm a b) (a + 1)

theorem wf_writeWord (e : Config.Endian) {mem : Memory} (hm : Memory.wf mem) (a w : Word) :
    Memory.wf (writeWord e mem a w) :=
  wf_storeBytes hm a _

/-- Reset's memory has the canonical form. -/
theorem wf_resetOf_mem (cfg : Config.Params) : Memory.wf (State.resetOf cfg).mem :=
  ⟨List.Pairwise.nil, by simp [State.resetOf]⟩

theorem byteAt_storeByte_same (mem : Memory) (a : Word) (b : Byte) : byteAt (storeByte mem a b) a = b := by
  simp [byteAt, storeByte, Memory.lookup_insert_same]

theorem byteAt_storeByte_other (mem : Memory) (a c : Word) (b : Byte) (h : c ≠ a) :
    byteAt (storeByte mem a b) c = byteAt mem c := by
  have : c.toNat ≠ a.toNat := fun e => h (BitVec.eq_of_toNat_eq e)
  simp [byteAt, storeByte, Memory.lookup_insert_other _ _ _ _ this]

/-- The word read is the one the four fetched bytes make. -/
theorem readWord_of_fetchBytes {e : Config.Endian} {mem mem' : Memory} {a : Word}
    (h : fetchBytes mem a = fetchBytes mem' a) : readWord e mem a = readWord e mem' a := by
  simp only [fetchBytes, List.cons.injEq, and_true] at h
  obtain ⟨h0, h1, h2, h3⟩ := h
  rw [readWord, h0, h1, h2, h3]
  rfl

/-- Decoding the four fetched bytes is decoding the word read. -/
theorem decodeBytes_fetchBytes (e : Config.Endian) (mem : Memory) (a : Word) :
    decodeBytes e (fetchBytes mem a) = .ok ((decodeDescriptor (readWord e mem a)).toInstr, []) := rfl

/-- The fetched bytes of a word in memory order are that word. -/
theorem readWord_eq_of_fetchBytes {e : Config.Endian} {mem : Memory} {a w : Word}
    (h : fetchBytes mem a = bytesOfWord e w) : readWord e mem a = w := by
  obtain ⟨b0, b1, b2, b3, hb, hw⟩ := wordOfBytes_bytesOfWord e w
  rw [hb] at h
  simp only [fetchBytes, List.cons.injEq, and_true] at h
  obtain ⟨h0, h1, h2, h3⟩ := h
  rw [readWord, h0, h1, h2, h3, hw]

end Sys2Proof.Machine
end

