-- ==== Sys2Proof/Laws/PerInstr.lean ====
section
/-! SUPPORT. Per-instruction facts about the syntax. -/

namespace Sys2Proof.Laws

open Sys2Proof.Machine

/-- The two low bits of the word of a descriptor row (R86); the operations have no word (R94). -/
def tableKind : Instr → Option (BitVec 2)
  | .l1Fault _ => some 0b00#2
  | .l1Coarse _ _ _ _ => some 0b01#2
  | .l1Section _ _ _ _ _ _ _ _ => some 0b10#2
  | .l1Fine _ _ _ _ => some 0b11#2
  | .accessIfetch _ _ => none
  | .accessRead _ _ => none
  | .accessWrite _ _ => none
  | .cp15WriteM _ => none
  | .cp15WriteTtbr _ => none
  | .tlbFlush => none
  | .tlbLock _ _ => none
  | .cp15ReadAbortStatus => none

/-- The encoded word of an instruction has its row's kind bits, and an operation has no word. -/
def EncodedKind.Statement (i : Instr) : Prop := (encode i).map kindBits = tableKind i

namespace EncodedKind

theorem l1Fault (ignored : BitVec 30) : Statement (.l1Fault ignored) := by
  simp [Statement, encode, tableKind]

theorem l1Coarse (base : BitVec 22) (sbz : BitVec 1) (domain : BitVec 4) (imp : BitVec 3) :
    Statement (.l1Coarse base sbz domain imp) := by
  simp [Statement, encode, tableKind]

theorem l1Section (base : BitVec 12) (sbzHi : BitVec 8) (ap : BitVec 2) (sbzLo : BitVec 1) (domain : BitVec 4)
    (imp c b : BitVec 1) : Statement (.l1Section base sbzHi ap sbzLo domain imp c b) := by
  simp [Statement, encode, tableKind]

theorem l1Fine (base : BitVec 20) (sbz : BitVec 3) (domain : BitVec 4) (imp : BitVec 3) :
    Statement (.l1Fine base sbz domain imp) := by
  simp [Statement, encode, tableKind]

theorem accessIfetch (va : Word) (priv : Priv) : Statement (.accessIfetch va priv) := rfl
theorem accessRead (va : Word) (priv : Priv) : Statement (.accessRead va priv) := rfl
theorem accessWrite (va : Word) (priv : Priv) : Statement (.accessWrite va priv) := rfl
theorem cp15WriteM (b : BitVec 1) : Statement (.cp15WriteM b) := rfl
theorem cp15WriteTtbr (v : Word) : Statement (.cp15WriteTtbr v) := rfl
theorem tlbFlush : Statement .tlbFlush := rfl
theorem tlbLock (t : TlbName) (va : Word) : Statement (.tlbLock t va) := rfl
theorem cp15ReadAbortStatus : Statement .cp15ReadAbortStatus := rfl

end EncodedKind

end Sys2Proof.Laws
end

