-- ==== Sys2Proof/Laws/Step.lean ====
section
/-! SUPPORT. All one step can do (R62): a descriptor fetched and run, an idle step, a request run, or an action of the
environment. -/

namespace Sys2Proof.Machine

/-- Every instruction is a descriptor or a request of the processor (R10). -/
theorem instr_cases (i : Instr) : (∃ d : Descriptor, i = d.toInstr) ∨ ∃ r : Request, i = requestInstr r := by
  cases i with
  | l1Fault a => exact .inl ⟨.fault a, rfl⟩
  | l1Coarse a b c d => exact .inl ⟨.coarse a b c d, rfl⟩
  | l1Section a b c d e f g h => exact .inl ⟨.sect a b c d e f g h, rfl⟩
  | l1Fine a b c d => exact .inl ⟨.fine a b c d, rfl⟩
  | accessIfetch va p => exact .inr ⟨.access .ifetch va p, rfl⟩
  | accessRead va p => exact .inr ⟨.access .read va p, rfl⟩
  | accessWrite va p => exact .inr ⟨.access .write va p, rfl⟩
  | cp15WriteM b => exact .inr ⟨.writeM b, rfl⟩
  | cp15WriteTtbr v => exact .inr ⟨.writeTtbr v, rfl⟩
  | tlbFlush => exact .inr ⟨.flush, rfl⟩
  | tlbLock t va => exact .inr ⟨.lock t va, rfl⟩
  | cp15ReadAbortStatus => exact .inr ⟨.readAbortStatus, rfl⟩

/-- Running a descriptor alone leaves its walk's result (R163). -/
theorem exec_descriptor (d : Descriptor) (s : State) :
    exec d.toInstr s = .next (finishWalk (descriptorResult s.cfg s.mem s.walkVa d) s) := by
  cases d <;> rfl

/-- With a fetch pending, a step runs the descriptor at the fetch address. -/
theorem step_walk {s : State} (h : s.walkActive = true) :
    step s = exec (decodeDescriptor (readWord s.cfg.endian s.mem (l1Address s.ttbr s.walkVa))).toInstr s := by
  simp [step, h, decodeBytes_fetchBytes]

/-- All one step can do. -/
theorem step_cases {s t : State} (h : step s = .next t) :
    (s.walkActive = true ∧ t = finishWalk (tableWalk s s.walkVa) s) ∨
    (s.walkActive = false ∧
      ((s.inputs = [] ∧ t = s) ∨
       (∃ r rest, s.inputs = .request r :: rest ∧ exec (requestInstr r) { s with inputs := rest } = .next t) ∨
       (∃ pa w rest, s.inputs = .storeWord pa w :: rest ∧
          t = { s with inputs := rest, mem := writeWord s.cfg.endian s.mem pa w }) ∨
       (∃ pa b rest, s.inputs = .storeByte pa b :: rest ∧
          t = { s with inputs := rest, mem := storeByte s.mem pa b }) ∨
       (∃ v rest, s.inputs = .setDomainControl v :: rest ∧ t = { s with inputs := rest, domainControl := v }) ∨
       (∃ v rest, s.inputs = .setOtherControl v :: rest ∧ t = { s with inputs := rest, otherControl := v }))) := by
  cases hw : s.walkActive with
  | true =>
    rw [step_walk hw, exec_descriptor] at h
    exact .inl ⟨rfl, (Host.Outcome.next.inj h).symm⟩
  | false =>
    refine .inr ⟨rfl, ?_⟩
    simp only [step, hw, Bool.false_eq_true, if_false] at h
    split at h <;> rename_i hi
    · exact .inl ⟨hi, (Host.Outcome.next.inj h).symm⟩
    · exact .inr (.inl ⟨_, _, hi, h⟩)
    · exact .inr (.inr (.inl ⟨_, _, _, hi, (Host.Outcome.next.inj h).symm⟩))
    · exact .inr (.inr (.inr (.inl ⟨_, _, _, hi, (Host.Outcome.next.inj h).symm⟩)))
    · exact .inr (.inr (.inr (.inr (.inl ⟨_, _, hi, (Host.Outcome.next.inj h).symm⟩))))
    · exact .inr (.inr (.inr (.inr (.inr ⟨_, _, hi, (Host.Outcome.next.inj h).symm⟩))))

/-- All the control operations other than `TLB.LOCK` can do (R140 to R147). -/
theorem exec_request_cases {r : Request} {s t : State} (h : exec (requestInstr r) s = .next t) :
    (∃ kind va priv, r = .access kind va priv ∧ access kind va priv s = .next t) ∨
    (∃ b, r = .writeM b ∧ t = answer .done { s with m := b }) ∨
    (∃ v, r = .writeTtbr v ∧ t = drawn (answer .done { s with ttbr := ttbrAfter v (Config.ttbrLow s.draws) })) ∨
    (r = .flush ∧ t = answer .done { s with tlbs := s.tlbs.map (flushSlots s.cfg.flushRemovesLocked) }) ∨
    (∃ n va, r = .lock n va ∧ execTlbLock n va s = .next t) ∨
    (r = .readAbortStatus ∧ t = answer (.abortStatus s.abortStatus) s) := by
  cases r with
  | access kind va priv => exact .inl ⟨kind, va, priv, rfl, exec_accessInstr kind va priv s ▸ h⟩
  | writeM b => exact .inr (.inl ⟨b, rfl, (Host.Outcome.next.inj h).symm⟩)
  | writeTtbr v => exact .inr (.inr (.inl ⟨v, rfl, (Host.Outcome.next.inj h).symm⟩))
  | flush => exact .inr (.inr (.inr (.inl ⟨rfl, (Host.Outcome.next.inj h).symm⟩)))
  | lock n va => exact .inr (.inr (.inr (.inr (.inl ⟨n, va, rfl, h⟩))))
  | readAbortStatus => exact .inr (.inr (.inr (.inr (.inr ⟨rfl, (Host.Outcome.next.inj h).symm⟩))))

end Sys2Proof.Machine
end

