-- ==== Sys2Proof/Tests/Slice0.lean ====
section
/-! SUPPORT. The model's own tests: expected values come from spec/95_test_vectors.md (V and W numbers) or are worked out by
hand from the rule named; and for every statement with hypotheses a named state that meets them all. -/

namespace Sys2Proof.Tests

open Sys2Proof Sys2Proof.Machine

/-! ## Well-formed instructions: one ill-formed term for each check (R227) -/

theorem test_wf_refuses_coarse_sbz : (Instr.l1Coarse 0xC0020#22 1#1 0#4 0#3).wellFormed = false := by decide
theorem test_wf_refuses_section_sbz_hi :
    (Instr.l1Section 0x301#12 0x01#8 0b11#2 0#1 0#4 0#1 1#1 1#1).wellFormed = false := by decide
theorem test_wf_refuses_section_sbz_lo :
    (Instr.l1Section 0x301#12 0#8 0b11#2 1#1 0#4 0#1 1#1 1#1).wellFormed = false := by decide
theorem test_wf_refuses_fine_sbz : (Instr.l1Fine 0x3000A#20 0b001#3 0#4 0#3).wellFormed = false := by decide
theorem test_wf_refuses_ttbr_low : (Instr.cp15WriteTtbr 0x30007FFF#32).wellFormed = false := by decide
theorem test_wf_accepts :
    [Instr.l1Fault 0x37AB6FBB#30, .l1Coarse 0xC0020#22 0#1 0xF#4 0#3, .l1Section 0x301#12 0#8 0b11#2 0#1 0#4 0#1 1#1 1#1,
      .l1Fine 0x3000A#20 0#3 0#4 0#3, .cp15WriteTtbr 0x30004000#32].all Instr.wellFormed = true := by decide

/-! ## Decoding: words written out bit by bit from the encodings of R87 to R90 -/

/-- V9b, R87: IGN [31:2], kind 00. -/
theorem test_decode_fault :
    decodeTableWord 32 0b110111101010110110111110111011_00 = some (.l1Fault 0b110111101010110110111110111011#30) := by decide
/-- V12b, R88: base [31:10], SBZ [9], domain [8:5], IMP [4:2], kind 01. -/
theorem test_decode_coarse :
    decodeTableWord 32 0b0011000000000000100000_0_1111_000_01 = some (.l1Coarse 0b0011000000000000100000#22 0#1 15#4 0#3) := by
  decide
/-- V12c: as V12 with SBZ [9] = 1 (0x30008201). -/
theorem test_decode_coarse_sbz : decodeTableWord 32 0x30008201 = some (.l1Coarse 0xC0020#22 1#1 0#4 0#3) := by decide
/-- V10, R89: base [31:20], SBZ [19:12], AP [11:10], SBZ [9], domain [8:5], IMP [4], C [3], B [2], kind 10. -/
theorem test_decode_section :
    decodeTableWord 32 0b001100000001_00000000_11_0_0000_0_1_1_10 =
      some (.l1Section 0x301#12 0#8 3#2 0#1 0#4 0#1 1#1 1#1) := by decide
/-- Every field of R89 with a value of its own: IMP 1, C 0, B 1, domain 5, AP 10, SBZ 0x81 and 1. -/
theorem test_decode_section_fields :
    decodeTableWord 32 0b101010111100_10000001_10_1_0101_1_0_1_10 =
      some (.l1Section 0xABC#12 0x81#8 2#2 1#1 5#4 1#1 0#1 1#1) := by decide
/-- V11c: 0xFFF00DFE. -/
theorem test_decode_section_ones :
    decodeTableWord 32 0xFFF00DFE = some (.l1Section 0xFFF#12 0#8 3#2 0#1 0xF#4 1#1 1#1 1#1) := by decide
/-- V13b, R90: base [31:12], SBZ [11:9], domain [8:5], IMP [4:2], kind 11. -/
theorem test_decode_fine :
    decodeTableWord 32 0b00110000000000001010_000_1111_000_11 = some (.l1Fine 0x3000A#20 0#3 15#4 0#3) := by decide
/-- V13c with IMP 101: SBZ [11:9] = 001. -/
theorem test_decode_fine_fields :
    decodeTableWord 32 0b00110000000000001010_001_0011_101_11 = some (.l1Fine 0x3000A#20 1#3 3#4 5#3) := by decide

/-- R80: only 32-bit words are descriptors. -/
theorem test_decode_refuses_other_lengths : decodeTableWord 16 0x0C0E = none ∧ decodeTableWord 64 0x30100C0E = none := by decide
/-- R54: fewer than four bytes are no table entry. -/
theorem test_decode_refuses_three_bytes : decodeBytes .little [0x0E#8, 0x0C#8, 0x10#8] = .error (.truncated 3) := by rfl
/-- R55: the byte at the lowest address is bits [7:0] (little) or [31:24] (big). -/
theorem test_byte_orders :
    wordOfBytes .little 0x0E#8 0x0C#8 0x10#8 0x30#8 = 0x30100C0E#32 ∧
    wordOfBytes .big 0x30#8 0x10#8 0x0C#8 0x0E#8 = 0x30100C0E#32 := by decide
/-- R87 to R90, the other direction. -/
theorem test_encode :
    encode (.l1Fault 0#30) = some 0#32 ∧ encode (.l1Coarse 0xC0020#22 0#1 0xF#4 0#3) = some 0x300081E1#32 ∧
    encode (.l1Section 0x301#12 0#8 3#2 0#1 0#4 0#1 1#1 1#1) = some 0x30100C0E#32 ∧
    encode (.l1Fine 0x3000A#20 1#3 0#4 0#3) = some 0x3000A203#32 := by decide

/-- R94: the accesses, by kind. -/
theorem test_select_access :
    requestInstr (.access .ifetch 4#32 .user) = .accessIfetch 4#32 .user ∧
    requestInstr (.access .read 4#32 .user) = .accessRead 4#32 .user ∧
    requestInstr (.access .write 4#32 .privileged) = .accessWrite 4#32 .privileged := by decide
/-- R94: coprocessor 15, register 1 bit 0, and register 2; any other register selects nothing. -/
theorem test_select_cp15 :
    (selectCoprocessorWrite 15 1 0xFFFFFFFE#32).map requestInstr = some (.cp15WriteM 0#1) ∧
    (selectCoprocessorWrite 15 1 1#32).map requestInstr = some (.cp15WriteM 1#1) ∧
    (selectCoprocessorWrite 15 2 0x30004000#32).map requestInstr = some (.cp15WriteTtbr 0x30004000#32) ∧
    selectCoprocessorWrite 15 3 0#32 = none ∧ selectCoprocessorWrite 14 1 1#32 = none := by decide
/-- R94: the operations whose selection is not stated, by name. -/
theorem test_select_named :
    requestInstr .flush = .tlbFlush ∧ requestInstr (.lock .unified 4#32) = .tlbLock .unified 4#32 ∧
    requestInstr .readAbortStatus = .cp15ReadAbortStatus := by decide

/-! ## Addresses -/

/-- V1 to V8. -/
theorem test_l1_address :
    l1Address 0x30004000#32 0x12345678#32 = 0x3000448C#32 ∧ l1Address 0xA0000000#32 0xFFFFFFFF#32 = 0xA0003FFC#32 ∧
    l1Address 0#32 0#32 = 0#32 ∧ l1Address 0x30007FFF#32 0x00100000#32 = 0x30004004#32 ∧
    l1Address 0xFFFFC000#32 0xFFF00000#32 = 0xFFFFFFFC#32 ∧ l1Address 0x30004000#32 0x30004000#32 = 0x30004C00#32 ∧
    l1Address 0x30004000#32 0x123FFFFC#32 = 0x3000448C#32 ∧ l1Address 0x30004000#32 0x12400000#32 = 0x30004490#32 := by decide
/-- V15, V16, V18, V19: the high 12 bits are the descriptor's, the low 20 the virtual address's. -/
theorem test_section_address :
    physicalAddress (sectionEntry 0x301#12 3#2 0#4 0#1 1#1 1#1 0x123FFFFC#32) 0x123FFFFC#32 = 0x301FFFFC#32 ∧
    physicalAddress (sectionEntry 0x301#12 3#2 0#4 0#1 1#1 1#1 0x12300000#32) 0x12300000#32 = 0x30100000#32 ∧
    physicalAddress (sectionEntry 0xFFF#12 3#2 15#4 1#1 1#1 1#1 0x000FFFFF#32) 0x000FFFFF#32 = 0xFFFFFFFF#32 ∧
    physicalAddress (sectionEntry 0x000#12 1#2 15#4 0#1 0#1 0#1 0xFFFFFFFF#32) 0xFFFFFFFF#32 = 0x000FFFFF#32 := by decide
/-- W11, W16: the candidate second-level addresses. -/
theorem test_candidate_l2_address :
    candidateL2Address .coarse 0x30008001#32 0x12345678#32 = 0x30008114#32 ∧
    candidateL2Address .fine 0x3000A003#32 0x12345678#32 = 0x3000A454#32 := by decide
/-- R30: a match is decided by the bits above the offset. -/
theorem test_region_match :
    inRegion .sect 0x12300000#32 0x123FFFFF#32 = true ∧ inRegion .sect 0x12300000#32 0x12400000#32 = false ∧
    inRegion .tiny 0x12345400#32 0x123457FF#32 = true ∧ inRegion .tiny 0x12345400#32 0x12345800#32 = false := by decide
/-- R61: how the physical address is used. -/
theorem test_address_use :
    addressUse false false 4#32 = .mainMemoryAccess 4#32 ∧ addressUse true false 4#32 = .lineFetch 4#32 ∧
    addressUse true true 4#32 = .ignored := by decide

/-! ## A small machine -/

/-- The parameters of the tests: the candidates of spec/93_implementation_defined.md, lockdown, no fault marks. -/
def params : Config.Params where
  endian := .little
  tlbCachesFaults := false
  flushRemovesLocked := false
  sbzNonzero := .refuse
  tlbLockdown := true
  cache := true
  cacheWhenMmuOff := true
  perm := .candidate
  l2Walk := .candidate
  abortRecord := .candidate

/-- Store words, as software builds its tables. -/
def image (e : Config.Endian) (words : List (Word × Word)) : Memory :=
  words.foldl (fun mem x => writeWord e mem x.1 x.2) []

/-- An enabled machine with one slot, table at 0x30004000, domain 0 client, whose memory holds the given words. -/
def machine (words : List (Word × Word)) : State where
  cfg := params
  m := 1#1
  controlHigh := 0#31
  ttbr := 0x30004000#32
  abortStatus := ⟨0#32, 0#32⟩
  domainControl := 1#32
  otherControl := 0#32
  tlbs := .unified [.unused]
  mem := image .little words
  walkVa := 0x12345678#32
  walkActive := false
  walkResult := none
  inputs := []
  response := none
  draws := 0

/-- Entry 0x123 is the section word `d`. -/
def sectionMachine (d : Word) : State := machine [(0x3000448C#32, d)]
/-- Entry 0x123 is the coarse descriptor 0x30008001, whose entry 0x45 is `d2` (W11). -/
def coarseMachine (d2 : Word) : State := machine [(0x3000448C#32, 0x30008001#32), (0x30008114#32, d2)]
/-- Entry 0x123 is the fine descriptor 0x3000A003, whose entry 0x115 is `d2` (W16). -/
def fineMachine (d2 : Word) : State := machine [(0x3000448C#32, 0x3000A003#32), (0x3000A454#32, d2)]

/-- The state after a step that goes on; the given state if it stops. -/
def next (o : Host.Outcome State Fault Refusal) (s : State) : State :=
  match o with
  | .next t => t
  | .fault _ => s
  | .refused _ => s

/-- The answer of an access. -/
def answerOf (kind : AccessKind) (va : Word) (priv : Priv) (s : State) : Option Response :=
  (next (exec (accessInstr kind va priv) s) s).response

/-- The refusal, if the step ends in one. -/
def refusalOf (o : Host.Outcome State Fault Refusal) : Option Refusal :=
  match o with
  | .next _ => none
  | .fault _ => none
  | .refused r => some r

/-- The entry of V14. -/
def entry14 : TlbEntry where
  vaBase := 0x12300000#32
  size := .sect
  paBase := 0x30100000#32
  ap := .whole 3#2
  domain := 0#4
  c := 1#1
  b := 1#1
  imp := 0#3
  level := .sect
  locked := false

/-! ## Accesses -/

/-- V14, V25: the running example; the entry stands in the slot. -/
theorem test_section_read :
    answerOf .read 0x12345678#32 .privileged (sectionMachine 0x30100C0E#32) = some (.proceed 0x30145678#32 1#1 1#1) := by decide
theorem test_section_fill :
    (next (exec (.accessRead 0x12345678#32 .privileged) (sectionMachine 0x30100C0E#32)) (machine [])).tlbs =
      .unified [.entry entry14] := by decide
/-- P1, R121: with `M` = 0 a split system's instruction fetch is cacheable by `P_CACHE_WHEN_MMU_OFF`; a data access is not. -/
theorem test_disabled_ifetch :
    answerOf .ifetch 0#32 .privileged { machine [] with m := 0#1, tlbs := .split [] [] } = some (.proceed 0#32 1#1 0#1) ∧
    answerOf .ifetch 0#32 .privileged { machine [] with m := 0#1 } = some (.proceed 0#32 0#1 0#1) := by decide
theorem test_disabled_write :
    answerOf .write 0xFFFFFFFC#32 .user { machine [] with m := 0#1, tlbs := .split [] [] } =
      some (.proceed 0xFFFFFFFC#32 0#1 0#1) := by decide
/-- P3, W10: a translation fault for any kind, status 0101 and the address recorded; an ifetch records nothing (G8). -/
theorem test_fault_write :
    answerOf .write 0x124ABCDE#32 .user (machine [(0x30004490#32, 0#32)]) =
      some (.abort ⟨.translation, .sect, 0x124ABCDE#32, none⟩) := by decide
theorem test_fault_ifetch_records_nothing :
    (next (exec (.accessIfetch 0x12400000#32 .user) (machine [(0x30004490#32, 0xDEADBEEC#32)])) (machine [])).abortStatus =
      ⟨0#32, 0#32⟩ := by decide
/-- W2: domain 0 no access: a domain abort, status word 0x09 and the fault address. -/
theorem test_domain_abort :
    (next (exec (.accessWrite 0x12345678#32 .user) { sectionMachine 0x30100C0E#32 with domainControl := 0#32 }) (machine [])).abortStatus =
      ⟨0x09#32, 0x12345678#32⟩ := by decide
/-- W3, W4: AP 10. -/
theorem test_ap_10 :
    answerOf .write 0x12345678#32 .user (sectionMachine 0x3010080E#32) =
      some (.abort ⟨.permission, .sect, 0x12345678#32, some 0#4⟩) ∧
    answerOf .read 0x12345678#32 .user (sectionMachine 0x3010080E#32) = some (.proceed 0x30145678#32 1#1 1#1) ∧
    answerOf .write 0x12345678#32 .privileged (sectionMachine 0x3010080E#32) = some (.proceed 0x30145678#32 1#1 1#1) := by decide
/-- W5: AP 01; W6: AP 00 with S = R = 0. -/
theorem test_ap_01_00 :
    answerOf .read 0x12345678#32 .user (sectionMachine 0x3010040E#32) =
      some (.abort ⟨.permission, .sect, 0x12345678#32, some 0#4⟩) ∧
    answerOf .read 0x12345678#32 .privileged (sectionMachine 0x3010000E#32) =
      some (.abort ⟨.permission, .sect, 0x12345678#32, some 0#4⟩) := by decide
/-- W7, W8: S is bit 8 and R bit 9 of `OtherControl`. -/
theorem test_s_and_r_bits :
    answerOf .read 0x12345678#32 .privileged { sectionMachine 0x3010000E#32 with otherControl := 0x100#32 } =
      some (.proceed 0x30145678#32 1#1 1#1) ∧
    answerOf .read 0x12345678#32 .user { sectionMachine 0x3010000E#32 with otherControl := 0x100#32 } =
      some (.abort ⟨.permission, .sect, 0x12345678#32, some 0#4⟩) ∧
    answerOf .read 0x12345678#32 .user { sectionMachine 0x3010000E#32 with otherControl := 0x200#32 } =
      some (.proceed 0x30145678#32 1#1 1#1) ∧
    answerOf .write 0x12345678#32 .privileged { sectionMachine 0x3010000E#32 with otherControl := 0x200#32 } =
      some (.abort ⟨.permission, .sect, 0x12345678#32, some 0#4⟩) := by decide
/-- W9: a manager domain is not checked. -/
theorem test_manager :
    answerOf .write 0x12345678#32 .user { sectionMachine 0x3010000E#32 with domainControl := 3#32 } =
      some (.proceed 0x30145678#32 1#1 1#1) := by decide
/-- W12, W13: a small page, its subpage chosen by va[11:10]. -/
theorem test_small_page :
    answerOf .read 0x12345678#32 .user (coarseMachine 0x30500FFE#32) = some (.proceed 0x30500678#32 1#1 1#1) ∧
    answerOf .read 0x12345678#32 .user (coarseMachine 0x30500F3E#32) =
      some (.abort ⟨.permission, .page, 0x12345678#32, some 0#4⟩) ∧
    answerOf .read 0x12345278#32 .user (coarseMachine 0x30500F3E#32) = some (.proceed 0x30500278#32 1#1 1#1) := by decide
/-- W14, W15, W17: a large page, an unmapped page, a tiny page. -/
theorem test_large_tiny_pages :
    answerOf .read 0x12345678#32 .user (coarseMachine 0x30700FFD#32) = some (.proceed 0x30705678#32 1#1 1#1) ∧
    answerOf .read 0x12345678#32 .user (coarseMachine 0#32) =
      some (.abort ⟨.translation, .page, 0x12345678#32, some 0#4⟩) ∧
    answerOf .read 0x12345678#32 .user (fineMachine 0x3060043F#32) = some (.proceed 0x30600678#32 1#1 1#1) := by decide
/-- R161: the 1 KB subpages of a small page and the 16 KB subpages of a large page, first and last addresses of two of each. -/
theorem test_subpage_fields :
    let e : TlbEntry := ⟨0x12340000#32, .large, 0#32, .perSubpage 0#2 1#2 2#2 3#2, 0#4, 0#1, 0#1, 0#3, .page, false⟩
    apFor e 0x12340000#32 = 0#2 ∧ apFor e 0x12343FFF#32 = 0#2 ∧ apFor e 0x12344000#32 = 1#2 ∧ apFor e 0x1234FFFF#32 = 3#2 ∧
    apFor { e with size := .small } 0x12340400#32 = 1#2 ∧ apFor { e with size := .small } 0x123407FF#32 = 1#2 ∧
    apFor { e with size := .small } 0x12340800#32 = 2#2 := by decide
/-- G6, log entry 20: set should-be-zero bits of a large page word ([15:12]) and of a tiny page word ([9:6]). -/
theorem test_candidate_sbz :
    tableWalk (coarseMachine 0x30701FFD#32) 0x12345678#32 = .refused .sbzNonzero ∧
    tableWalk (fineMachine 0x3060047F#32) 0x12345678#32 = .refused .sbzNonzero ∧
    answerOf .read 0x12345678#32 .user { coarseMachine 0x30701FFD#32 with cfg := { params with sbzNonzero := .ignore } } =
      some (.proceed 0x30705678#32 1#1 1#1) := by decide
/-- R173: the default after reset is refuse (V11e). -/
theorem test_sbz_default_after_reset :
    (next (step (State.reset.withFetchWord 32 0x30101C0E)) State.reset).walkResult = some (.refused .sbzNonzero) := by rfl
/-- V11e, V11f, U4: a set should-be-zero bit is refused or ignored. -/
theorem test_sbz_parameter :
    refusalOf (exec (.accessRead 0x12345678#32 .user) (sectionMachine 0x30101C0E#32)) = some (.walkRefused .sbzNonzero) ∧
    answerOf .read 0x12345678#32 .user
        { sectionMachine 0x30101C0E#32 with cfg := { params with sbzNonzero := .ignore } } =
      some (.proceed 0x30145678#32 1#1 1#1) := by decide
/-- V32: a stale entry is used although the table changed. -/
theorem test_stale_hit :
    answerOf .read 0x12345678#32 .privileged
        { sectionMachine 0x30200C0E#32 with tlbs := .unified [.entry entry14] } = some (.proceed 0x30145678#32 1#1 1#1) := by decide
/-- V37: with no slot the walk result is used and kept nowhere. -/
theorem test_no_slots :
    answerOf .read 0x12345678#32 .privileged { sectionMachine 0x30100C0E#32 with tlbs := .unified [] } =
      some (.proceed 0x30145678#32 1#1 1#1) := by decide
/-- R113: a split system's data access fills the data TLB only. -/
theorem test_split_fill :
    (next (exec (.accessRead 0x12345678#32 .privileged)
      { sectionMachine 0x30100C0E#32 with tlbs := .split [.unused] [.unused] }) (machine [])).tlbs =
      .split [.unused] [.entry entry14] := by decide

/-! ## Control operations -/

/-- V39 and the kept bits [31:1]. -/
theorem test_write_m :
    let t := next (exec (.cp15WriteM 1#1) { machine [] with m := 0#1, controlHigh := 5#31 }) (machine [])
    t.m = 1#1 ∧ t.controlHigh = 5#31 ∧ t.response = some .done := by decide
/-- V42. -/
theorem test_write_ttbr : (next (exec (.cp15WriteTtbr 0x30004000#32) { machine [] with ttbr := 0#32 }) (machine [])).ttbr = 0x30004000#32 := by
  decide
/-- V43: bits [31:14] of a value with non-zero low bits. -/
theorem test_write_ttbr_low :
    (next (exec (.cp15WriteTtbr 0x30007FFF#32) (machine [])) (machine [])).ttbr.extractLsb' 14 18 = 0xC001#18 := by
  show (ttbrAfter 0x30007FFF#32 _).extractLsb' 14 18 = 0xC001#18
  exact BitVec.extractLsb'_append_eq_left
/-- V35: a flush leaves a locked entry, or removes it by `P_FLUSH_REMOVES_LOCKED`. -/
theorem test_flush_locked :
    (next (exec .tlbFlush { machine [] with tlbs := .unified [.entry { entry14 with locked := true }, .entry entry14] }) (machine [])).tlbs =
      .unified [.entry { entry14 with locked := true }, .unused] ∧
    (next (exec .tlbFlush { machine [] with
        cfg := { params with flushRemovesLocked := true }
        tlbs := .unified [.entry { entry14 with locked := true }, .entry entry14] }) (machine [])).tlbs =
      .unified [.unused, .unused] := by decide
/-- R144: both TLBs of a split system, fault marks too. -/
theorem test_flush_split :
    (next (exec .tlbFlush { machine [] with tlbs := .split [.entry entry14] [.faultMark 0x12400000#32] }) (machine [])).tlbs =
      .split [.unused] [.unused] := by decide
/-- V24: the entry of V14, locked. -/
theorem test_lock :
    (next (exec (.tlbLock .unified 0x12345678#32) (sectionMachine 0x30100C0E#32)) (machine [])).tlbs =
      .unified [.entry { entry14 with locked := true }] := by decide
/-- V36: a walk that faults locks nothing; and R146's refusals. -/
theorem test_lock_stops :
    (next (exec (.tlbLock .unified 0x12400000#32) (machine [(0x30004490#32, 0#32)])) (sectionMachine 0#32)).tlbs = .unified [.unused] ∧
    refusalOf (exec (.tlbLock .unified 0x12345678#32)
      { sectionMachine 0x30100C0E#32 with tlbs := .unified [.entry { entry14 with locked := true }] }) = some .noSlotToLock ∧
    refusalOf (exec (.tlbLock .data 0x12345678#32) (sectionMachine 0x30100C0E#32)) = some .noSuchTlb := by decide
/-- R147. -/
theorem test_read_abort_status :
    (next (exec .cp15ReadAbortStatus { machine [] with abortStatus := ⟨0x0D#32, 0x12345678#32⟩ }) (machine [])).response =
      some (.abortStatus ⟨0x0D#32, 0x12345678#32⟩) := by decide

/-! ## Descriptors run alone, and steps -/

/-- V9c: all of bits [31:2] set, still the fault. -/
theorem test_run_fault :
    (next (exec (.l1Fault 0x3FFFFFFF#30) (machine [])) (machine [])).walkResult = some (.fault .sect none) := by decide
/-- V14: the entry of the running example, for the address walked. -/
theorem test_run_section :
    (next (exec (.l1Section 0x301#12 0#8 3#2 0#1 0#4 0#1 1#1 1#1) (machine [])) (machine [])).walkResult = some (.entry entry14) := by
  decide
/-- W12, W14: size and `va_base` of the pages. -/
theorem test_run_coarse :
    (next (exec (.l1Coarse 0xC0020#22 0#1 0#4 5#3) (coarseMachine 0x30700FFD#32)) (machine [])).walkResult =
      some (.entry ⟨0x12340000#32, .large, 0x30700000#32, .perSubpage 3#2 3#2 3#2 3#2, 0#4, 1#1, 1#1, 5#3, .page, false⟩) := by
  decide
/-- U6: a tiny page in a coarse table; R123: not instantiated. -/
theorem test_run_coarse_refused :
    (next (exec (.l1Coarse 0xC0020#22 0#1 0#4 0#3) (coarseMachine 0x3060043F#32)) (machine [])).walkResult =
      some (.refused .tinyInCoarse) ∧
    (next (exec (.l1Coarse 0xC0020#22 0#1 0#4 0#3) { machine [] with cfg := { params with l2Walk := .uninstantiated } }) (machine [])).walkResult =
      some (.refused .secondLevelOpen) := by decide
/-- W17. -/
theorem test_run_fine :
    (next (exec (.l1Fine 0x3000A#20 0#3 0#4 0#3) (fineMachine 0x3060043F#32)) (machine [])).walkResult =
      some (.entry ⟨0x12345400#32, .tiny, 0x30600400#32, .whole 3#2, 0#4, 1#1, 1#1, 0#3, .page, false⟩) := by decide
/-- A placed word runs as the first step after reset (log entry 2). -/
theorem test_first_step_after_reset :
    (next (step (State.reset.withFetchWord 32 0xFFFFFFFC)) State.reset).walkResult = some (.fault .sect none) := by rfl
/-- P2, first steps: a store, then the access that reads it, in the order issued; big-endian tables work the same. -/
theorem test_run_of_inputs :
    (next (({ machine [] with
        cfg := { params with endian := .big }
        inputs := [.storeWord 0x3000448C#32 0x30100C0E#32, .request (.access .read 0x12345678#32 .user)] } : State).run 2) (machine [])).response =
      some (.proceed 0x30145678#32 1#1 1#1) := by decide
/-- Log entry 4: a store keeps the addresses rising; storing again replaces. -/
theorem test_memory_order :
    storeByte (storeByte (storeByte [] 8#32 1#8) 4#32 2#8) 8#32 3#8 = [(4, 2#8), (8, 3#8)] := by decide

/-! ## Witnesses: for each statement with hypotheses, a concrete state and operands that meet them all

Each theorem is named after its statement; where a statement has several clauses there is one conjunct for each. -/

/-- The V14 machine with entry 0x123 cached and entry 0x124 a fault. -/
def hitMachine (slots : List Slot) : State :=
  { machine [(0x3000448C#32, 0x30100C0E#32), (0x30004490#32, 0#32)] with tlbs := .unified slots }

/-- The entry of V14, locked. -/
def locked14 : TlbEntry := { entry14 with locked := true }

/-- The step goes on. -/
def goesOn (o : Host.Outcome State Fault Refusal) : Prop := ∃ t, o = .next t

theorem witness_DecodeOfEncodeIsTheInstruction :
    encode (.l1Fault 0x3FFFFFFF#30) = some 0xFFFFFFFC#32 ∧ encode (.l1Coarse 0xC0020#22 1#1 0#4 0#3) = some 0x30008201#32 ∧
    encode (.l1Section 0xFFF#12 0#8 3#2 0#1 15#4 1#1 1#1 1#1) = some 0xFFF00DFE#32 ∧
    encode (.l1Fine 0x3000A#20 0#3 0xF#4 0#3) = some 0x3000A1E3#32 := by decide

theorem witness_EveryWordIsExactlyOneKind :
    kindBits 0xFFFFFFFC#32 = 0b00#2 ∧ kindBits 0x30008001#32 = 0b01#2 ∧ kindBits 0x30100C0E#32 = 0b10#2 ∧
    kindBits 0x3000A003#32 = 0b11#2 := by decide

theorem witness_FaultDescriptorAborts :
    (hitMachine [.entry entry14]).checks ∧
    hits ((hitMachine [.entry entry14]).slotsFor .write) 0x12400000#32 = [] ∧
    kindBits ((hitMachine [.entry entry14]).l1Word 0x12400000#32) = 0b00#2 := ⟨⟨rfl, by decide⟩, by decide, by decide⟩

theorem witness_SectionDescriptorYieldsItsEntry :
    (kindBits 0x30100C0E#32 = 0b10#2 ∧ (0x30100C0E#32).extractLsb' 12 8 = 0#8 ∧ (0x30100C0E#32).extractLsb' 9 1 = 0#1) ∧
    (kindBits 0x30101C0E#32 = 0b10#2 ∧ ({ params with sbzNonzero := .ignore } : Config.Params).sbzNonzero = .ignore) := by decide

/-- V11e, V11f, V12c, V13c. -/
theorem witness_SbzBitsRefusedByParameter :
    (machine []).cfg.sbzNonzero = .refuse ∧
    (kindBits 0x30101C0E#32 = 0b10#2 ∧ (0x30101C0E#32).extractLsb' 12 8 ≠ 0#8) ∧
    (kindBits 0x30100E0E#32 = 0b10#2 ∧ (0x30100E0E#32).extractLsb' 9 1 ≠ 0#1) ∧
    (kindBits 0x30008201#32 = 0b01#2 ∧ (0x30008201#32).extractLsb' 9 1 ≠ 0#1) ∧
    (kindBits 0x3000A203#32 = 0b11#2 ∧ (0x3000A203#32).extractLsb' 9 3 ≠ 0#3) := by decide

theorem witness_PageDescriptorsRunSecondLevelWalk :
    (kindBits 0x30008001#32 = 0b01#2 ∧ (0x30008001#32).extractLsb' 9 1 = 0#1) ∧
    (kindBits 0x3000A003#32 = 0b11#2 ∧ (0x3000A003#32).extractLsb' 9 3 = 0#3) ∧
    (kindBits 0x3000A203#32 = 0b11#2 ∧ ({ params with sbzNonzero := .ignore } : Config.Params).sbzNonzero = .ignore) := by decide

/-- W11, W12, W14, W15, W17: each kind of second-level word, in a coarse table. -/
theorem witness_CandidatePageEntries :
    kindBits 0x30008001#32 = 0b01#2 ∧ (0x30008001#32).extractLsb' 9 1 = 0#1 ∧
    (∀ d2 ∈ [0#32, 0x30700FFD#32, 0x30500FFE#32, 0x3060043F#32],
      (coarseMachine d2).cfg.l2Walk = .candidate ∧
      readWord (coarseMachine d2).cfg.endian (coarseMachine d2).mem
        ((0x30008001#32).extractLsb' 10 22 ++ (coarseMachine d2).walkVa.extractLsb' 12 8 ++ 0b00#2) = d2) ∧
    kindBits 0#32 = 0b00#2 ∧ (kindBits 0x30700FFD#32 = 0b01#2 ∧ (0x30700FFD#32).extractLsb' 12 4 = 0#4) ∧
    kindBits 0x30500FFE#32 = 0b10#2 ∧ (kindBits 0x3060043F#32 = 0b11#2 ∧ (0x3060043F#32).extractLsb' 6 4 = 0#4) :=
  ⟨by decide, by decide, by
    intro d2 h
    simp only [List.mem_cons, List.not_mem_nil, or_false] at h
    rcases h with rfl | rfl | rfl | rfl <;> exact ⟨rfl, by decide⟩,
    by decide, by decide, by decide, by decide⟩

/-- W16, W17: the same in a fine table. -/
theorem witness_CandidatePageEntries_fine :
    kindBits 0x3000A003#32 = 0b11#2 ∧ (0x3000A003#32).extractLsb' 9 3 = 0#3 ∧
    ∀ d2 ∈ [0#32, 0x30700FFD#32, 0x30500FFE#32, 0x3060043F#32],
      (fineMachine d2).cfg.l2Walk = .candidate ∧
      readWord (fineMachine d2).cfg.endian (fineMachine d2).mem
        ((0x3000A003#32).extractLsb' 12 20 ++ (fineMachine d2).walkVa.extractLsb' 10 10 ++ 0b00#2) = d2 :=
  ⟨by decide, by decide, by
    intro d2 h
    simp only [List.mem_cons, List.not_mem_nil, or_false] at h
    rcases h with rfl | rfl | rfl | rfl <;> exact ⟨rfl, by decide⟩⟩

/-- Should-be-zero bits of the page words set, refused and ignored; and of the first-level word, ignored. -/
theorem witness_CandidatePageEntries_sbz :
    (kindBits 0x30701FFD#32 = 0b01#2 ∧ (0x30701FFD#32).extractLsb' 12 4 ≠ 0#4) ∧
    (kindBits 0x3060047F#32 = 0b11#2 ∧ (0x3060047F#32).extractLsb' 6 4 ≠ 0#4) ∧ params.sbzNonzero = .refuse ∧
    readWord .little (coarseMachine 0x30701FFD#32).mem
      ((0x30008001#32).extractLsb' 10 22 ++ (coarseMachine 0#32).walkVa.extractLsb' 12 8 ++ 0b00#2) = 0x30701FFD#32 ∧
    readWord .little (fineMachine 0x3060047F#32).mem
      ((0x3000A003#32).extractLsb' 12 20 ++ (fineMachine 0#32).walkVa.extractLsb' 10 10 ++ 0b00#2) = 0x3060047F#32 ∧
    ({ params with sbzNonzero := .ignore } : Config.Params).l2Walk = .candidate ∧
    ({ params with sbzNonzero := .ignore } : Config.Params).sbzNonzero = .ignore :=
  ⟨by decide, by decide, rfl, by decide, by decide, rfl, rfl⟩

theorem witness_DescriptorFrame : goesOn (exec (decodeDescriptor 0x30008001#32).toInstr (coarseMachine 0x30500FFE#32)) := ⟨_, rfl⟩

/-- A section word and a fault word, with another memory elsewhere and another low part of `TTBR`. -/
theorem witness_FirstLevelWalkReadsOneWord :
    (0x30007FFF#32).extractLsb' 14 18 = (hitMachine []).ttbr.extractLsb' 14 18 ∧
    SameWordAt (hitMachine []).mem (sectionMachine 0x30100C0E#32).mem (l1Address (hitMachine []).ttbr 0x12345678#32) ∧
    (hitMachine []).mem ≠ (sectionMachine 0x30100C0E#32).mem ∧
    kindBits ((hitMachine []).l1Word 0x12345678#32) = 0b10#2 ∧ kindBits ((hitMachine []).l1Word 0x12400000#32) = 0b00#2 := by
  unfold SameWordAt; decide

/-- Memories that differ, but not at the second-level address: candidate and uninterpreted (the word of a memory and itself). -/
theorem witness_PageWalkReadsOneMoreWord :
    kindBits 0x30008001#32 = 0b01#2 ∧ kindBits 0x3000A003#32 = 0b11#2 ∧ params.l2Walk = .candidate ∧
    SameWordAt (coarseMachine 0x30500FFE#32).mem (image .little [(0x30008114#32, 0x30500FFE#32)])
      (candidateL2Address .coarse 0x30008001#32 0x12345678#32) ∧
    (coarseMachine 0x30500FFE#32).mem ≠ image .little [(0x30008114#32, 0x30500FFE#32)] ∧
    ({ params with l2Walk := .uninterpreted } : Config.Params).l2Walk = .uninterpreted ∧
    SameWordAt [] [] (Config.l2Index .coarse 0x30008001#32 0x12345678#32 ++ 0b00#2) :=
  ⟨by decide, by decide, rfl, by unfold SameWordAt; decide, by decide, rfl, rfl⟩

theorem witness_StepRunsTheFetchedDescriptor :
    let s := { sectionMachine 0x30100C0E#32 with walkActive := true }
    s.walkActive = true ∧ encode (.l1Section 0x301#12 0#8 3#2 0#1 0#4 0#1 1#1 1#1) = some 0x30100C0E#32 ∧
    fetchBytes s.mem (l1Address s.ttbr s.walkVa) = bytesOfWord s.cfg.endian 0x30100C0E#32 := by decide

theorem witness_StepTakesTheOldestInput :
    (machine []).walkActive = false ∧ (machine []).inputs = [] ∧
    ∀ x ∈ [Input.request .flush, .storeWord 0xFFFFFFFE#32 1#32, .storeByte 0#32 1#8, .setDomainControl 1#32, .setOtherControl 1#32],
      ({ machine [] with inputs := [x] } : State).inputs = x :: [] := by decide

theorem witness_StoredWordReadsBack :
    (0x3#32) ≠ 0xFFFFFFFE#32 ∧ (0x3#32) ≠ 0xFFFFFFFE#32 + 1 ∧ (0x3#32) ≠ 0xFFFFFFFE#32 + 2 ∧ (0x3#32) ≠ 0xFFFFFFFE#32 + 3 := by decide

theorem witness_DisabledAccessIsFlat : State.reset.m = 0#1 := rfl

/-- One matching entry; two; a fault mark. -/
theorem witness_MatchingSlotAnswers :
    (hitMachine [.entry entry14]).checks ∧ (hitMachine [.entry entry14, .entry entry14]).checks ∧
    hits ((hitMachine [.entry entry14]).slotsFor .read) 0x12345678#32 ≠ [] ∧
    hits ((hitMachine [.entry entry14, .entry entry14]).slotsFor .read) 0x123FFFFF#32 ≠ [] ∧
    hits ((hitMachine [.faultMark 0x12300000#32]).slotsFor .read) 0x12300000#32 ≠ [] :=
  ⟨⟨rfl, by decide⟩, ⟨rfl, by decide⟩, by decide, by decide, by decide⟩

theorem witness_AllowedHitProceeds :
    (hitMachine [.entry entry14]).checks ∧
    hits ((hitMachine [.entry entry14]).slotsFor .write) 0x123FFFFF#32 = [.entry entry14] ∧
    checkEntry (hitMachine [.entry entry14]) .write 0x123FFFFF#32 .user entry14 = .allow :=
  ⟨⟨rfl, by decide⟩, by decide, by decide⟩

/-- A domain refusal (domain 1 has no access) and a permission refusal (AP 01, user). -/
theorem witness_RefusedHitAborts :
    (hitMachine []).checks ∧
    hits ((hitMachine [.entry { entry14 with domain := 1#4 }]).slotsFor .read) 0x12345678#32 = [.entry { entry14 with domain := 1#4 }] ∧
    checkEntry (hitMachine []) .read 0x12345678#32 .user { entry14 with domain := 1#4 } = .refuse .domain ∧
    hits ((hitMachine [.entry { entry14 with ap := .whole 1#2 }]).slotsFor .read) 0x12345678#32 =
      [.entry { entry14 with ap := .whole 1#2 }] ∧
    checkEntry (hitMachine []) .read 0x12345678#32 .user { entry14 with ap := .whole 1#2 } = .refuse .permission :=
  ⟨⟨rfl, by decide⟩, by decide, by decide, by decide, by decide⟩

/-- With a free slot, and with every slot locked. -/
theorem witness_MissFillsBeforeTheCheck :
    (hitMachine [.unused]).checks ∧ hits ((hitMachine [.unused]).slotsFor .read) 0x12345678#32 = [] ∧
    tableWalk (hitMachine [.unused]) 0x12345678#32 = .entry entry14 ∧
    hits ((hitMachine [.entry { locked14 with vaBase := 0#32 }]).slotsFor .read) 0x12345678#32 = [] :=
  ⟨⟨rfl, by decide⟩, by decide, by decide, by decide⟩

theorem witness_SectionMissProceeds :
    let s := hitMachine [.unused]
    s.checks ∧ hits (s.slotsFor .write) 0x12345678#32 = [] ∧ s.l1Word 0x12345678#32 = 0x30100C0E#32 ∧
    kindBits 0x30100C0E#32 = 0b10#2 ∧ (0x30100C0E#32).extractLsb' 12 8 = 0#8 ∧ (0x30100C0E#32).extractLsb' 9 1 = 0#1 ∧
    permission s.cfg ((0x30100C0E#32).extractLsb' 10 2) ((0x30100C0E#32).extractLsb' 5 4) .sect .write .user
      s.domainControl s.otherControl = .allow :=
  ⟨⟨rfl, by decide⟩, by decide, by decide, by decide, by decide, by decide, by decide⟩

/-- A section-level fault and a page-level one. -/
theorem witness_FaultingMissAborts :
    ((hitMachine [.unused]).checks ∧ hits ((hitMachine [.unused]).slotsFor .read) 0x12400000#32 = [] ∧
      tableWalk (hitMachine [.unused]) 0x12400000#32 = .fault .sect none) ∧
    ((coarseMachine 0#32).checks ∧ hits ((coarseMachine 0#32).slotsFor .read) 0x12345678#32 = [] ∧
      tableWalk (coarseMachine 0#32) 0x12345678#32 = .fault .page (some 0#4)) :=
  ⟨⟨⟨rfl, by decide⟩, by decide, by decide⟩, ⟨⟨rfl, by decide⟩, by decide, by decide⟩⟩

/-- Each of the two reasons to stop. -/
theorem witness_AccessStopsExactlyWhen :
    refusalOf (exec (accessInstr .read 0x12345678#32 .user)
      { hitMachine [.entry entry14] with cfg := { params with perm := .uninstantiated } }) = some .permissionCheckOpen ∧
    refusalOf (exec (accessInstr .read 0x12345678#32 .user) (coarseMachine 0x3060043F#32)) =
      some (.walkRefused .tinyInCoarse) := by decide

/-- A proceeding, a section fault, a page fault. -/
theorem witness_AccessAnswersProceedOrAbort :
    goesOn (exec (accessInstr .read 0x12345678#32 .user) (hitMachine [.unused])) ∧
    goesOn (exec (accessInstr .read 0x12400000#32 .user) (hitMachine [.unused])) ∧
    goesOn (exec (accessInstr .read 0x12345678#32 .user) (coarseMachine 0#32)) := ⟨⟨_, rfl⟩, ⟨_, rfl⟩, ⟨_, rfl⟩⟩

/-- A miss, a hit, a disabled access. -/
theorem witness_AccessFrame :
    goesOn (exec (accessInstr .ifetch 0x12345678#32 .user) (hitMachine [.unused])) ∧
    (goesOn (exec (accessInstr .read 0x12345678#32 .user) (hitMachine [.entry entry14])) ∧
      hits ((hitMachine [.entry entry14]).slotsFor .read) 0x12345678#32 ≠ []) ∧
    (goesOn (exec (accessInstr .write 0x12345678#32 .user) State.reset) ∧ State.reset.m = 0#1) :=
  ⟨⟨_, rfl⟩, ⟨⟨_, rfl⟩, by decide⟩, ⟨_, rfl⟩, rfl⟩

theorem witness_HitReadsNoTable :
    (hitMachine [.entry entry14]).checks ∧ hits ((hitMachine [.entry entry14]).slotsFor .read) 0x12345678#32 ≠ [] ∧
    goesOn (exec (accessInstr .read 0x12345678#32 .user) (hitMachine [.entry entry14])) := ⟨⟨rfl, by decide⟩, by decide, ⟨_, rfl⟩⟩

theorem witness_SplitTlbsAreIndependent :
    ({ hitMachine [] with tlbs := .split [.unused] [.entry entry14] } : State).tlbs = .split [.unused] [.entry entry14] ∧
    goesOn (exec (accessInstr .ifetch 0x12345678#32 .user) { hitMachine [] with tlbs := .split [.unused] [.entry entry14] }) ∧
    goesOn (exec (accessInstr .read 0x12345678#32 .user) { hitMachine [] with tlbs := .split [.unused] [.entry entry14] }) :=
  ⟨rfl, ⟨_, rfl⟩, ⟨_, rfl⟩⟩

theorem witness_WriteMSetsTheEnableBit :
    (hitMachine [.unused]).cfg.perm ≠ .uninstantiated ∧ hits ((hitMachine [.unused]).slotsFor .read) 0x12400000#32 = [] ∧
    kindBits ((hitMachine [.unused]).l1Word 0x12400000#32) = 0b00#2 := by decide

theorem witness_WriteTtbrSelectsTheTable : (0xFFFFC000#32).extractLsb' 0 14 = 0#14 ∧ (0x30007FFF#32).extractLsb' 0 14 ≠ 0#14 := by
  decide

/-- A locked and an unlocked slot, and an address no locked entry covers: with the table as it is its walk faults (an
answer), with a tiny page in a coarse table at that entry its walk is refused. -/
theorem witness_FlushRemovesCachedWalks :
    ((hitMachine [.entry locked14, .entry entry14]).tlbs.slots .unified)[0]? = some (.entry locked14) ∧
    ((hitMachine [.entry locked14, .entry entry14]).tlbs.slots .unified)[1]? = some (.entry entry14) ∧
    (hitMachine [.entry locked14, .entry entry14]).checks ∧
    (∀ x ∈ (hitMachine [.entry locked14, .entry entry14]).slotsFor .read,
      x.isLocked = true → x.covers 0x12400000#32 = false) ∧
    State.walkAnswer (next (exec .tlbFlush (hitMachine [.entry locked14, .entry entry14])) (machine [])) .read 0x12400000#32 .user =
      some (.abort ⟨.translation, .sect, 0x12400000#32, none⟩) ∧
    tableWalk { next (exec .tlbFlush (hitMachine [.entry locked14, .entry entry14])) (machine []) with
      mem := image .little [(0x30004490#32, 0x30008001#32), (0x30008000#32, 0x3060043F#32)] } 0x12400000#32 =
      .refused .tinyInCoarse :=
  ⟨by decide, by decide, ⟨rfl, by decide⟩, by decide, by decide, by decide⟩

theorem witness_LockPlacesTheEntryLocked :
    (hitMachine [.unused]).cfg.tlbLockdown = true ∧ (hitMachine [.unused]).m = 1#1 ∧ (hitMachine [.unused]).tlbs.has .unified = true ∧
    tableWalk (hitMachine [.unused]) 0x12345678#32 = .entry entry14 ∧
    (∃ x ∈ (hitMachine [.unused]).tlbs.slots .unified, x.isLocked = false) ∧
    tableWalk (hitMachine [.unused]) 0x12400000#32 = .fault .sect none := by decide

/-- Each of the five reasons to stop. -/
theorem witness_LockStopsExactlyWhen :
    ({ params with tlbLockdown := false } : Config.Params).tlbLockdown = false ∧ State.reset.m = 0#1 ∧
    (hitMachine []).tlbs.has .data = false ∧
    tableWalk (coarseMachine 0x3060043F#32) 0x12345678#32 = .refused .tinyInCoarse ∧
    (tableWalk (hitMachine [.entry locked14]) 0x12345678#32 = .entry entry14 ∧
      ∀ x ∈ (hitMachine [.entry locked14]).tlbs.slots .unified, x.isLocked = true) :=
  ⟨rfl, rfl, by decide, by decide, by decide, by decide⟩

theorem witness_ReadAbortStatusAnswersTheRecord :
    goesOn (exec (accessInstr .read 0x12400000#32 .user) (hitMachine [.unused])) ∧
    answerOf .read 0x12400000#32 .user (hitMachine [.unused]) = some (.abort ⟨.translation, .sect, 0x12400000#32, none⟩) :=
  ⟨⟨_, rfl⟩, by decide⟩

theorem witness_ControlFrame :
    goesOn (exec (.cp15WriteM 1#1) (hitMachine [])) ∧ goesOn (exec (.cp15WriteTtbr 1#32) (hitMachine [])) ∧
    goesOn (exec .tlbFlush (hitMachine [])) ∧ goesOn (exec (.tlbLock .unified 0x12345678#32) (hitMachine [.unused])) ∧
    goesOn (exec .cp15ReadAbortStatus (hitMachine [])) ∧
    goesOn (exec (requestInstr (.access .read 0x12345678#32 .user)) (hitMachine [])) :=
  ⟨⟨_, rfl⟩, ⟨_, rfl⟩, ⟨_, rfl⟩, ⟨_, rfl⟩, ⟨_, rfl⟩, ⟨_, rfl⟩⟩

/-- Each register written by its operation, with a change. -/
theorem witness_OnlyItsOperationWritesARegister :
    (next (exec (.cp15WriteM 0#1) (hitMachine [])) (hitMachine [])).m ≠ (hitMachine []).m ∧
    (next (exec (.cp15WriteTtbr 0#32) (hitMachine [])) (hitMachine [])).ttbr ≠ (hitMachine []).ttbr ∧
    (next (exec (accessInstr .read 0x12345678#32 .user) { hitMachine [] with domainControl := 0#32 }) (hitMachine [])).abortStatus ≠
      (hitMachine []).abortStatus ∧
    (next (exec .tlbFlush (hitMachine [.entry entry14])) (hitMachine [])).tlbs ≠ (hitMachine [.entry entry14]).tlbs ∧
    (next (exec (.tlbLock .unified 0x12345678#32) (hitMachine [.unused])) (hitMachine [])).tlbs ≠ (hitMachine [.unused]).tlbs ∧
    (next (exec (accessInstr .read 0x12345678#32 .user) (hitMachine [.unused])) (hitMachine [])).tlbs ≠
      (hitMachine [.unused]).tlbs := by decide

theorem witness_MemoryChangesOnlyByStores :
    (byteAt (next (step { hitMachine [] with inputs := [.storeByte 0x3000448C#32 0xFF#8] }) (hitMachine [])).mem 0x3000448C#32 ≠
      byteAt (hitMachine []).mem 0x3000448C#32) ∧
    (byteAt (next (step { hitMachine [] with inputs := [.storeWord 0x3000448C#32 0#32] }) (hitMachine [])).mem 0x3000448D#32 ≠
      byteAt (hitMachine []).mem 0x3000448D#32) ∧
    goesOn (step { hitMachine [] with inputs := [.storeByte 0x3000448C#32 0xFF#8] }) ∧
    goesOn (step { hitMachine [] with inputs := [.storeWord 0x3000448C#32 0#32] }) :=
  ⟨by decide, by decide, ⟨_, rfl⟩, ⟨_, rfl⟩⟩

theorem witness_ParametersNeverChange :
    goesOn (step { hitMachine [.unused] with inputs := [.request (.access .read 0x12345678#32 .user)] }) := ⟨_, rfl⟩

theorem witness_StepKeepsTheInvariant :
    State.Inv { hitMachine [.entry locked14] with inputs := [.request (.access .read 0x12345678#32 .user)] } ∧
    goesOn (step { hitMachine [.entry locked14] with inputs := [.request (.access .read 0x12345678#32 .user)] }) := by
  refine ⟨⟨by decide, by unfold Tlbs.legal; decide, by intro r h; cases h⟩, ⟨_, rfl⟩⟩

/-- A flush that leaves the locked entry, and an access that fills beside it. -/
theorem witness_LockedSlotStaysOverAStep :
    (Slot.entry locked14).isLocked = true ∧
    ((hitMachine [.entry locked14]).tlbs.slots .unified)[0]? = some (.entry locked14) ∧
    (hitMachine [.entry locked14]).cfg.flushRemovesLocked = false ∧
    goesOn (step { hitMachine [.entry locked14] with inputs := [.request .flush] }) :=
  ⟨rfl, by decide, rfl, ⟨_, rfl⟩⟩

/-- V24: a lock, a change of the table, an access; then an access that goes on. -/
theorem witness_LockedRegionNeverMisses :
    let s := { hitMachine [.entry locked14, .unused] with
      inputs := [.storeWord 0x3000448C#32 0#32, .request .flush] }
    s.cfg.flushRemovesLocked = false ∧ .entry locked14 ∈ s.tlbs.slots .unified ∧ (Slot.entry locked14).isLocked = true ∧
    (Slot.entry locked14).covers 0x123FFFFF#32 = true ∧ goesOn (s.run 2) ∧
    (next (s.run 2) s).tlbs.nameFor .read = .unified ∧
    goesOn (exec (accessInstr .read 0x123FFFFF#32 .user) (next (s.run 2) s)) :=
  ⟨rfl, by decide, rfl, by decide, ⟨_, rfl⟩, rfl, ⟨_, rfl⟩⟩

/-- P1, on the machine after reset. -/
theorem witness_DisabledRunStaysFlat :
    let s := { State.reset with inputs := [.request (.access .write 0x30004000#32 .user), .storeByte 0#32 1#8] }
    s.m = 0#1 ∧ .request (.writeM 1#1) ∉ s.inputs ∧ (∀ a, s.response ≠ some (.abort a)) ∧ goesOn (s.run 2) ∧
    .request .flush ∉ s.inputs ∧ (∀ v, .request (.writeTtbr v) ∉ s.inputs) :=
  ⟨rfl, by simp, by simp [State.reset, State.resetOf], ⟨_, rfl⟩, by simp, by simp⟩

theorem witness_FlushMakesTheTlbsCoherent :
    (hitMachine [.entry entry14]).noLocked ∧
    ({ hitMachine [.entry locked14] with cfg := { params with flushRemovesLocked := true } } : State).cfg.flushRemovesLocked = true ∧
    goesOn (exec .tlbFlush (hitMachine [.entry entry14])) := ⟨by unfold State.noLocked; decide, rfl, ⟨_, rfl⟩⟩

/-- The cached entry of V14 agrees with the table that holds its descriptor. -/
theorem hitMachine_coherent (p : Config.Params) (he : p.endian = .little) (hs : p.sbzNonzero = .refuse) :
    State.coherent { hitMachine [.entry entry14, .unused] with cfg := p } := by
  intro x hx
  rcases List.mem_cons.mp hx with rfl | hx
  · intro va hva
    have hidx : va.extractLsb' 20 12 = 0x123#12 := by
      have h : va >>> 20 = 0x123#32 := by simpa [inRegion, RegionSize.log2, entry14] using hva
      rw [show va.extractLsb' 20 12 = (va >>> 20).extractLsb' 0 12 by ext i hi; simp, h]
      decide
    have haddr : l1Address (hitMachine []).ttbr va = 0x3000448C#32 := by rw [l1Address, hidx]; decide
    have hword : readWord .little (hitMachine []).mem 0x3000448C#32 = 0x30100C0E#32 := by decide
    have hdec : decodeDescriptor 0x30100C0E#32 = .sect 0x301#12 0#8 3#2 0#1 0#4 0#1 1#1 1#1 := by decide
    show descriptorResult p (hitMachine []).mem va
      (decodeDescriptor (readWord p.endian (hitMachine []).mem (l1Address (hitMachine []).ttbr va))) = _
    rw [he, haddr, hword, hdec]
    simp [descriptorResult, walkSection, sbzRefused, hs, sectionEntry, regionBase, hidx, entry14]
  · rw [List.mem_singleton.mp hx]; trivial

theorem witness_SectionAccessesKeepCoherence :
    let s := { hitMachine [.entry entry14, .unused] with cfg := { params with l2Walk := .uninstantiated } }
    s.cfg.l2Walk = .uninstantiated ∧ s.coherent ∧ goesOn (exec (accessInstr .read 0x12345678#32 .user) s) ∧
    goesOn (exec (.tlbLock .unified 0x12400000#32) s) :=
  ⟨rfl, hitMachine_coherent _ rfl rfl, ⟨_, rfl⟩, ⟨_, rfl⟩⟩

theorem witness_CoherentTlbIsTransparent :
    let s := hitMachine [.entry entry14, .unused]
    s.checks ∧ s.coherent ∧ goesOn (exec (accessInstr .read 0x12345678#32 .user) s) ∧
    s.walkAnswer .read 0x12345678#32 .user = some (.proceed 0x30145678#32 1#1 1#1) :=
  ⟨⟨rfl, by decide⟩, hitMachine_coherent params rfl rfl, ⟨_, rfl⟩, by decide⟩

theorem witness_CandidateCheckHasThreeOutcomes : params.perm = .candidate := rfl

/-- Every value of the domain field, and the access-control fields named. -/
theorem witness_CandidateDomainIsExaminedFirst :
    params.perm = .candidate ∧ (0x4#32 >>> (2 * (1#4).toNat)).extractLsb' 0 2 = 0b01#2 ∧
    (0#32 >>> (2 * (15#4).toNat)).extractLsb' 0 2 = 0b00#2 ∧ (0x80000000#32 >>> (2 * (15#4).toNat)).extractLsb' 0 2 = 0b10#2 ∧
    (0xC0000000#32 >>> (2 * (15#4).toNat)).extractLsb' 0 2 = 0b11#2 ∧
    ((0#32).getLsbD 8 = false ∧ (0#32).getLsbD 9 = false) ∧ ((0x100#32).getLsbD 8 = true ∧ (0x100#32).getLsbD 9 = false) ∧
    ((0x200#32).getLsbD 8 = false ∧ (0x200#32).getLsbD 9 = true) ∧
    ((0x300#32).getLsbD 8 = true ∧ (0x300#32).getLsbD 9 = true) := by decide

/-- Each of the six codes: a data access that ends in that abort; and an instruction fetch that aborts. -/
theorem witness_CandidateAbortStatusRecorded :
    params.abortRecord = .candidate ∧
    answerOf .read 0x12400000#32 .user (hitMachine []) = some (.abort ⟨.translation, .sect, 0x12400000#32, none⟩) ∧
    answerOf .read 0x12345678#32 .user (coarseMachine 0#32) = some (.abort ⟨.translation, .page, 0x12345678#32, some 0#4⟩) ∧
    answerOf .read 0x12345678#32 .user { hitMachine [] with domainControl := 0#32 } =
      some (.abort ⟨.domain, .sect, 0x12345678#32, some 0#4⟩) ∧
    answerOf .read 0x12345678#32 .user { coarseMachine 0x30500FFE#32 with domainControl := 0#32 } =
      some (.abort ⟨.domain, .page, 0x12345678#32, some 0#4⟩) ∧
    answerOf .write 0x12345678#32 .user (sectionMachine 0x3010080E#32) =
      some (.abort ⟨.permission, .sect, 0x12345678#32, some 0#4⟩) ∧
    answerOf .read 0x12345678#32 .user (coarseMachine 0x30500F3E#32) =
      some (.abort ⟨.permission, .page, 0x12345678#32, some 0#4⟩) ∧
    answerOf .ifetch 0x12400000#32 .user (hitMachine []) = some (.abort ⟨.translation, .sect, 0x12400000#32, none⟩) :=
  ⟨rfl, by decide, by decide, by decide, by decide, by decide, by decide, by decide⟩

theorem witness_EveryCheckHasThreeOutcomes :
    params.perm ≠ .uninstantiated ∧ ({ params with perm := .uninterpreted } : Config.Params).perm ≠ .uninstantiated := by decide

/-- A page entry of one size, with four different fields. -/
def pageEntry (size : RegionSize) : TlbEntry where
  vaBase := 0x12340000#32
  size := size
  paBase := 0x30700000#32
  ap := .perSubpage 0#2 1#2 2#2 3#2
  domain := 0#4
  c := 1#1
  b := 0#1
  imp := 0#3
  level := .page
  locked := false

/-- A section, and each subpage of a small and of a large page. -/
theorem witness_EntryCheckedWithItsSubpageField :
    (hitMachine []).checks ∧ (hitMachine [.entry (pageEntry .small)]).checks ∧
    (hits ((hitMachine [.entry entry14]).slotsFor .read) 0x12345678#32 = [.entry entry14] ∧ entry14.ap = .whole 3#2) ∧
    (pageEntry .small).ap = .perSubpage 0#2 1#2 2#2 3#2 ∧
    (∀ n ∈ [0#2, 1#2, 2#2, 3#2],
      (0x12340000#32 + n.setWidth 32 <<< 10).extractLsb' 10 2 = n ∧
      hits ((hitMachine [.entry (pageEntry .small)]).slotsFor .read) (0x12340000#32 + n.setWidth 32 <<< 10) =
        [.entry (pageEntry .small)] ∧
      (0x12340000#32 + n.setWidth 32 <<< 14).extractLsb' 14 2 = n ∧
      hits ((hitMachine [.entry (pageEntry .large)]).slotsFor .read) (0x12340000#32 + n.setWidth 32 <<< 14) =
        [.entry (pageEntry .large)]) :=
  ⟨⟨rfl, by decide⟩, ⟨rfl, by decide⟩, by decide, rfl, by decide⟩

theorem witness_SubpageHasOneAccessControl :
    ((pageEntry .small).size = .small ∧ 0x12340400#32 >>> 10 = 0x123407FF#32 >>> 10) ∧
    ((pageEntry .large).size = .large ∧ 0x12344000#32 >>> 14 = 0x12347FFF#32 >>> 14) ∧
    entry14.size = .sect ∧ (pageEntry .tiny).size = .tiny := by decide

end Sys2Proof.Tests
end

/-! # Proofs about accesses of a disabled machine, and the state after reset -/

namespace Sys2Proof.Machine

/-- `M` is read first (R111): with `M` = 0 an access of any kind is the flat one of R112 and R121. -/
theorem exec_accessInstr_of_disabled {s : State} (hm : s.m = 0#1) (kind : AccessKind) (va : Word) (priv : Priv) :
    exec (accessInstr kind va priv) s = .next (accessOff kind va s) := by
  rw [exec_accessInstr, access, if_pos hm]

/-- Reset clears `M` whatever the parameters are (R34). -/
@[simp] theorem State.resetOf_m (cfg : Config.Params) : (State.resetOf cfg).m = 0#1 := rfl

/-- The parameters `State.reset` takes are one choice of those of `State.resetOf` (R34). -/
@[simp] theorem State.reset_m : State.reset.m = 0#1 := State.resetOf_m _

/-- Settles O46: reset clears `M` for any parameters, so the first access is the flat one, which only answers. -/
theorem resetDisablesTheMmu : Obligations.ResetDisablesTheMmu := by
  refine ⟨State.reset_m, State.resetOf_m, fun kind va priv => ?_⟩
  have hflat := exec_accessInstr_of_disabled State.reset_m kind va priv
  exact ⟨_, _, hflat⟩

end Sys2Proof.Machine

/-! # Proofs about the encoding: the kind of a first-level descriptor, and the first-level descriptor address -/

namespace Sys2Proof

open Sys2Proof.Machine

/-! ## The decoder, one equation per kind (R86) -/

theorem decodeDescriptor_of_faultBits {d : Word} (h : kindBits d = 0b00#2) :
    decodeDescriptor d = .fault (d.extractLsb' 2 30) := by
  simp [decodeDescriptor, h]

theorem decodeDescriptor_of_coarseBits {d : Word} (h : kindBits d = 0b01#2) :
    decodeDescriptor d =
      .coarse (d.extractLsb' 10 22) (d.extractLsb' 9 1) (d.extractLsb' 5 4) (d.extractLsb' 2 3) := by
  simp [decodeDescriptor, h]

theorem decodeDescriptor_of_sectionBits {d : Word} (h : kindBits d = 0b10#2) :
    decodeDescriptor d =
      .sect (d.extractLsb' 20 12) (d.extractLsb' 12 8) (d.extractLsb' 10 2) (d.extractLsb' 9 1)
        (d.extractLsb' 5 4) (d.extractLsb' 4 1) (d.extractLsb' 3 1) (d.extractLsb' 2 1) := by
  simp [decodeDescriptor, h]

theorem decodeDescriptor_of_fineBits {d : Word} (h : kindBits d = 0b11#2) :
    decodeDescriptor d =
      .fine (d.extractLsb' 12 20) (d.extractLsb' 9 3) (d.extractLsb' 5 4) (d.extractLsb' 2 3) := by
  simp [decodeDescriptor, h]

/-- The kind bits that a decoded descriptor stands for (R86). -/
def Descriptor.kind : Descriptor → BitVec 2
  | .fault _ => 0b00#2
  | .coarse _ _ _ _ => 0b01#2
  | .sect _ _ _ _ _ _ _ _ => 0b10#2
  | .fine _ _ _ _ => 0b11#2

/-- Decoding keeps the kind bits, so that the constructor it answers with determines them. -/
@[simp] theorem decodeDescriptor_kind (d : Word) : (decodeDescriptor d).kind = kindBits d := by
  rcases kindBits_cases d with h | h | h | h
  · rw [decodeDescriptor_of_faultBits h, h]; rfl
  · rw [decodeDescriptor_of_coarseBits h, h]; rfl
  · rw [decodeDescriptor_of_sectionBits h, h]; rfl
  · rw [decodeDescriptor_of_fineBits h, h]; rfl

/-- A word that decodes to `x` has the kind bits of `x`. -/
theorem kindBits_of_decodeDescriptor {d : Word} {x : Descriptor} (h : decodeDescriptor d = x) :
    kindBits d = x.kind := by
  rw [← h, decodeDescriptor_kind]

/-! ## The rows of the opcode table (R86, R96) -/

theorem and_three_eq_kindBits (d : Word) : d &&& 0x00000003#32 = (kindBits d).setWidth 32 := by
  have hd : d = d.extractLsb' 2 30 ++ kindBits d := by
    rw [kindBits, BitVec.extractLsb'_append_extractLsb'_eq_extractLsb' (start₂ := 2) (start₁ := 0) rfl]
    exact BitVec.extractLsb'_eq_self.symm
  calc d &&& 0x00000003#32
      = (d.extractLsb' 2 30 ++ kindBits d) &&& (0#30 ++ BitVec.allOnes 2) := congrArg (· &&& 0x00000003#32) hd
    _ = 0#30 ++ kindBits d := by rw [BitVec.and_append, BitVec.and_zero, BitVec.and_allOnes]
    _ = (kindBits d).setWidth 32 := (BitVec.setWidth_eq_append (by decide)).symm

/-- Every row masks bits [1:0], so that it compares its pattern with the kind bits alone. -/
theorem hit_eq_kindBits {r : TableRow} (hr : r ∈ descriptorRows) (d : Word) :
    r.hit d = ((kindBits d).setWidth 32 == r.pattern) := by
  have hmask : ∀ r ∈ descriptorRows, r.mask = 0x00000003#32 := by decide
  rw [TableRow.hit, hmask r hr, and_three_eq_kindBits]

/-- The rows that match a word are those whose pattern is its kind bits. -/
theorem filter_hit_eq_kindBits (d : Word) :
    descriptorRows.filter (fun r => r.hit d) =
      descriptorRows.filter (fun r => (kindBits d).setWidth 32 == r.pattern) :=
  List.filter_congr fun _ hr => hit_eq_kindBits hr d

/-- Settles O3: the constructor answered is the one of the kind bits, and a row compares nothing but the kind bits, of
which there are four values. -/
theorem everyWordIsExactlyOneKind : Obligations.EveryWordIsExactlyOneKind := by
  intro d
  refine ⟨⟨?_, fun h => ?_⟩, ⟨?_, fun h => ?_⟩, ⟨?_, fun h => ?_⟩, ⟨?_, fun h => ?_⟩, ?_⟩
  · rintro ⟨_, h⟩; exact kindBits_of_decodeDescriptor h
  · exact ⟨_, decodeDescriptor_of_faultBits h⟩
  · rintro ⟨_, _, _, _, h⟩; exact kindBits_of_decodeDescriptor h
  · exact ⟨_, _, _, _, decodeDescriptor_of_coarseBits h⟩
  · rintro ⟨_, _, _, _, _, _, _, _, h⟩; exact kindBits_of_decodeDescriptor h
  · exact ⟨_, _, _, _, _, _, _, _, decodeDescriptor_of_sectionBits h⟩
  · rintro ⟨_, _, _, _, h⟩; exact kindBits_of_decodeDescriptor h
  · exact ⟨_, _, _, _, decodeDescriptor_of_fineBits h⟩
  · rw [filter_hit_eq_kindBits]
    rcases kindBits_cases d with h | h | h | h <;> rw [h] <;> decide

end Sys2Proof

namespace Sys2Proof.Machine

/-! ## The first-level descriptor address (R84) -/

theorem l1Address_tableBase (ttbr va : Word) : (l1Address ttbr va).extractLsb' 14 18 = ttbr.extractLsb' 14 18 := by
  rw [l1Address, BitVec.extractLsb'_append_eq_of_le (by decide), BitVec.extractLsb'_append_eq_left]

theorem l1Address_index (ttbr va : Word) : (l1Address ttbr va).extractLsb' 2 12 = va.extractLsb' 20 12 := by
  rw [l1Address, BitVec.extractLsb'_append_eq_of_le (by decide), BitVec.extractLsb'_append_eq_right]

theorem l1Address_wordAligned (ttbr va : Word) : (l1Address ttbr va).extractLsb' 0 2 = 0b00#2 :=
  BitVec.extractLsb'_append_eq_right

/-- The table base in its place, the index bits zero. -/
theorem maskedTableBase_eq_append (ttbr : Word) :
    ttbr &&& 0xFFFFC000#32 = ttbr.extractLsb' 14 18 ++ 0#12 ++ 0b00#2 := by
  have ht : ttbr = ttbr.extractLsb' 14 18 ++ ttbr.extractLsb' 2 12 ++ ttbr.extractLsb' 0 2 := by
    rw [BitVec.extractLsb'_append_extractLsb'_eq_extractLsb' (start₂ := 14) (start₁ := 2) rfl,
      BitVec.extractLsb'_append_extractLsb'_eq_extractLsb' (start₂ := 2) (start₁ := 0) rfl]
    exact BitVec.extractLsb'_eq_self.symm
  have hmask : 0xFFFFC000#32 = BitVec.allOnes 18 ++ 0#12 ++ 0#2 := by decide
  calc ttbr &&& 0xFFFFC000#32
      = (ttbr.extractLsb' 14 18 ++ ttbr.extractLsb' 2 12 ++ ttbr.extractLsb' 0 2) &&&
          (BitVec.allOnes 18 ++ 0#12 ++ 0#2) := by rw [← ht, hmask]
    _ = _ := by simp only [BitVec.and_append, BitVec.and_allOnes, BitVec.and_zero]

/-- The index in its place, the table base zero. -/
theorem shiftedIndex_eq_append (va : Word) : (va >>> 20) <<< 2 = 0#18 ++ va.extractLsb' 20 12 ++ 0b00#2 := by
  apply BitVec.eq_of_getLsbD_eq
  intro i hi
  rw [BitVec.getLsbD_append, BitVec.getLsbD_append, BitVec.getLsbD_shiftLeft]
  by_cases h2 : i < 2
  · simp [h2]
  · by_cases h14 : i - 2 < 12
    · simp [h2, hi, h14]
    · simp [h2, h14, BitVec.getLsbD_of_ge va (20 + (i - 2)) (by omega)]

/-- Two fields, each in its place, fill each other's zero bits. -/
theorem placedFields_or {n k l : Nat} (hi : BitVec n) (lo : BitVec k) :
    (hi ++ 0#k ++ 0#l) ||| (0#n ++ lo ++ 0#l) = hi ++ lo ++ 0#l := by
  simp only [BitVec.or_append, BitVec.or_zero, BitVec.zero_or]

/-- Two fields, each in its place, have no bit in common. -/
theorem placedFields_and {n k l : Nat} (hi : BitVec n) (lo : BitVec k) :
    (hi ++ 0#k ++ 0#l) &&& (0#n ++ lo ++ 0#l) = 0#(n + k + l) := by
  simp only [BitVec.and_append, BitVec.and_zero, BitVec.zero_and, BitVec.zero_append_zero]

theorem l1Address_eq_or (ttbr va : Word) :
    l1Address ttbr va = (ttbr &&& 0xFFFFC000#32) ||| ((va >>> 20) <<< 2) := by
  rw [maskedTableBase_eq_append, shiftedIndex_eq_append]
  exact (placedFields_or _ _).symm

theorem tableBase_and_index (ttbr va : Word) : (ttbr &&& 0xFFFFC000#32) &&& ((va >>> 20) <<< 2) = 0#32 := by
  rw [maskedTableBase_eq_append, shiftedIndex_eq_append]
  exact placedFields_and _ _

/-- No carry arises, so the sum is the OR. -/
theorem l1Address_eq_add (ttbr va : Word) :
    l1Address ttbr va = (ttbr &&& 0xFFFFC000#32) + ((va >>> 20) <<< 2) := by
  rw [BitVec.add_eq_or_of_and_eq_zero _ _ (tableBase_and_index ttbr va), l1Address_eq_or]

/-- Settles O5, from the three fields of the address and the two ways to join its parts. -/
theorem firstLevelAddressJoinsBaseAndIndex : Obligations.FirstLevelAddressJoinsBaseAndIndex := fun ttbr va =>
  ⟨l1Address_tableBase ttbr va, l1Address_index ttbr va, l1Address_wordAligned ttbr va, l1Address_eq_or ttbr va,
    l1Address_eq_add ttbr va⟩

end Sys2Proof.Machine

/-! # Proofs about access sequences: locked slots, runs, and accesses that hit -/

namespace Sys2Proof.Machine

/-! ## A locked slot stays (R116, R117) -/

/-- A fill of one TLB keeps every locked slot of every TLB. -/
theorem Tlbs.withSlots_keeps_locked {t : Tlbs} {m n : TlbName} {new : List Slot} {x y : Slot} {j : Nat}
    (hm : t.has m = true) (hfill : FilledWith (t.slots m) new y) (hj : (t.slots n)[j]? = some x)
    (hx : x.isLocked = true) : ((t.withSlots m new).slots n)[j]? = some x := by
  by_cases hn : n = m
  · subst hn
    rw [Tlbs.slots_withSlots_same hm]
    exact hfill.locked hj hx
  · rw [Tlbs.slots_withSlots_other hn]
    exact hj

/-- A flush that leaves locked entries keeps every locked slot (R145). -/
theorem flushSlots_false_keeps_locked {slots : List Slot} {j : Nat} {x : Slot} (hj : slots[j]? = some x)
    (hx : x.isLocked = true) : (flushSlots false slots)[j]? = some x := by
  simp [flushSlots, hj, hx]

section LockedSlot

variable {s t : State} {n : TlbName} {j : Nat} {x : Slot}

theorem fillTlb_keeps_locked (kind : AccessKind) (y : Slot) (hj : (s.tlbs.slots n)[j]? = some x)
    (hx : x.isLocked = true) : ((fillTlb kind y s).tlbs.slots n)[j]? = some x :=
  Tlbs.withSlots_keeps_locked (Tlbs.has_nameFor _ _) (place_filledWith _ _ y) hj hx

theorem keepFault_keeps_locked (kind : AccessKind) (level : Level) (va : Word) (hj : (s.tlbs.slots n)[j]? = some x)
    (hx : x.isLocked = true) : ((keepFault kind level va s).tlbs.slots n)[j]? = some x := by
  rcases keepFault_cases kind level va s with h | ⟨-, -, h⟩ <;> rw [h]
  · exact hj
  · exact fillTlb_keeps_locked kind _ hj hx

/-- An access keeps every locked slot: at most it fills a TLB. -/
theorem access_keeps_locked {kind : AccessKind} {va : Word} {priv : Priv} (h : access kind va priv s = .next t)
    (hj : (s.tlbs.slots n)[j]? = some x) (hx : x.isLocked = true) : (t.tlbs.slots n)[j]? = some x := by
  obtain ⟨-, rfl⟩ | ⟨-, ⟨e, -, rfl⟩ | ⟨base, -, rfl⟩ | ⟨-, ⟨e, -, rfl⟩ | ⟨level, domain, -, rfl⟩⟩⟩ := access_cases h
  · simpa using hj
  · simpa using hj
  · simpa using hj
  · simpa using fillTlb_keeps_locked kind (.entry e) hj hx
  · simpa using keepFault_keeps_locked kind level va hj hx

/-- `TLB.LOCK` takes a slot that is not locked, so it keeps every locked one (R146). -/
theorem execTlbLock_keeps_locked {m : TlbName} {va : Word} (h : execTlbLock m va s = .next t)
    (hj : (s.tlbs.slots n)[j]? = some x) (hx : x.isLocked = true) : (t.tlbs.slots n)[j]? = some x := by
  obtain ⟨-, -, hm, ⟨level, domain, -, rfl⟩ | ⟨e, i, -, hi, hfree, rfl⟩⟩ := execTlbLock_cases h
  · exact hj
  · exact Tlbs.withSlots_keeps_locked hm (.inl ⟨i, hi, hfree, rfl⟩) hj hx

/-- Every request keeps every locked slot, but a flush that removes locked entries. -/
theorem exec_request_keeps_locked {r : Request} (h : exec (requestInstr r) s = .next t)
    (hf : r = .flush → s.cfg.flushRemovesLocked = false) (hj : (s.tlbs.slots n)[j]? = some x)
    (hx : x.isLocked = true) : (t.tlbs.slots n)[j]? = some x := by
  obtain ⟨kind, va, priv, -, h⟩ | ⟨b, -, rfl⟩ | ⟨v, -, rfl⟩ | ⟨hr, rfl⟩ | ⟨m, va, -, h⟩ | ⟨-, rfl⟩ :=
    exec_request_cases h
  · exact access_keeps_locked h hj hx
  · exact hj
  · exact hj
  · rw [answer_tlbs, Tlbs.slots_map (flushSlots_nil _), hf hr]
    exact flushSlots_false_keeps_locked hj hx
  · exact execTlbLock_keeps_locked h hj hx
  · exact hj

/-- Every step keeps every locked slot, but a flush that removes locked entries (R117, R145). -/
theorem step_keeps_locked (h : step s = .next t) (hj : (s.tlbs.slots n)[j]? = some x) (hx : x.isLocked = true)
    (hf : ¬ (s.cfg.flushRemovesLocked = true ∧ s.walkActive = false ∧ ∃ rest, s.inputs = .request .flush :: rest)) :
    (t.tlbs.slots n)[j]? = some x := by
  obtain ⟨-, rfl⟩ | ⟨hw, ⟨-, rfl⟩ | ⟨r, rest, hi, h⟩ | ⟨_, _, _, -, rfl⟩ | ⟨_, _, _, -, rfl⟩ | ⟨_, _, -, rfl⟩ |
    ⟨_, _, -, rfl⟩⟩ := step_cases h
  case inr.inr.inl =>
    refine exec_request_keeps_locked h ?_ hj hx
    rintro rfl
    exact Bool.eq_false_of_not_eq_true fun hc => hf ⟨hc, hw, rest, hi⟩
  all_goals exact hj

end LockedSlot

/-! ## What a step leaves of the parameters and the inputs -/

/-- A request changes neither the parameters nor the inputs that follow it. -/
theorem exec_request_cfg_inputs {r : Request} {s t : State} (h : exec (requestInstr r) s = .next t) :
    t.cfg = s.cfg ∧ t.inputs = s.inputs := by
  obtain ⟨kind, va, priv, -, h⟩ | ⟨b, -, rfl⟩ | ⟨v, -, rfl⟩ | ⟨-, rfl⟩ | ⟨m, va, -, h⟩ | ⟨-, rfl⟩ :=
    exec_request_cases h
  case inl =>
    obtain ⟨-, rfl⟩ | ⟨-, ⟨e, -, rfl⟩ | ⟨base, -, rfl⟩ | ⟨-, ⟨e, -, rfl⟩ | ⟨level, domain, -, rfl⟩⟩⟩ :=
      access_cases h <;> simp
  case inr.inr.inr.inr.inl =>
    obtain ⟨-, -, -, ⟨level, domain, -, rfl⟩ | ⟨e, i, -, -, -, rfl⟩⟩ := execTlbLock_cases h <;> simp
  all_goals simp

/-- A step changes no parameter and makes no input: it acts on the oldest or on none (R62). -/
theorem step_cfg_inputs {s t : State} (h : step s = .next t) : t.cfg = s.cfg ∧ t.inputs <:+ s.inputs := by
  obtain ⟨-, rfl⟩ | ⟨-, ⟨-, rfl⟩ | ⟨r, rest, hi, h⟩ | ⟨_, _, _, hi, rfl⟩ | ⟨_, _, _, hi, rfl⟩ | ⟨_, _, hi, rfl⟩ |
    ⟨_, _, hi, rfl⟩⟩ := step_cases h
  · exact ⟨rfl, List.suffix_rfl⟩
  · exact ⟨rfl, List.suffix_rfl⟩
  · obtain ⟨hc, hin⟩ := exec_request_cfg_inputs h
    rw [hin, hi]
    exact ⟨hc, List.suffix_cons _ _⟩
  all_goals exact ⟨rfl, hi ▸ List.suffix_cons _ _⟩

/-! ## Runs -/

theorem State.run_zero (s : State) : s.run 0 = .next s := rfl

/-- On any machine, a run of `k + 1` steps that goes on is a step that goes on and a run of `k`. -/
theorem coreRun_succ {M : Host.Core} {k : Nat} {s t : M.State} (h : M.run (k + 1) s = .next t) :
    ∃ u, M.step s = .next u ∧ M.run k u = .next t := by
  unfold Host.Core.run at h
  split at h
  · exact ⟨_, ‹_›, h⟩
  · cases h
  · cases h

theorem State.run_succ {k : Nat} {s t : State} (h : s.run (k + 1) = .next t) :
    ∃ u, step s = .next u ∧ u.run k = .next t := coreRun_succ (M := Sys2Proof.core) h

/-- A property that every step keeps holds after every run. -/
theorem State.run_induction {P : State → Prop} (hstep : ∀ s t, P s → step s = .next t → P t) {k : Nat} {s t : State}
    (hs : P s) (h : s.run k = .next t) : P t := by
  induction k generalizing s with
  | zero => exact Host.Outcome.next.inj (State.run_zero s ▸ h) ▸ hs
  | succ k ih =>
    obtain ⟨u, hu, hrun⟩ := State.run_succ h
    exact ih (hstep s u hs hu) hrun

/-! ## Locked slots over runs (R117, R145) -/

/-- No flush to come removes locked entries: by the parameter none does, or the environment has issued none. -/
def State.keepsLocked (s : State) : Prop := s.cfg.flushRemovesLocked = false ∨ .request .flush ∉ s.inputs

theorem step_keepsLocked {s t : State} (hk : s.keepsLocked) (h : step s = .next t) : t.keepsLocked := by
  obtain ⟨hc, hi⟩ := step_cfg_inputs h
  exact hk.imp (fun hp => hc ▸ hp) (fun hno hmem => hno (hi.subset hmem))

/-- With no removing flush to come, a step keeps every locked slot. -/
theorem step_keeps_locked_of_keepsLocked {s t : State} {n : TlbName} {j : Nat} {x : Slot} (hk : s.keepsLocked)
    (h : step s = .next t) (hj : (s.tlbs.slots n)[j]? = some x) (hx : x.isLocked = true) :
    (t.tlbs.slots n)[j]? = some x := by
  refine step_keeps_locked h hj hx ?_
  rintro ⟨hc, -, rest, hi⟩
  rcases hk with hp | hno
  · exact absurd hc (by simp [hp])
  · exact hno (hi ▸ List.mem_cons_self)

theorem run_keeps_locked {k : Nat} {s t : State} {n : TlbName} {j : Nat} {x : Slot} (hk : s.keepsLocked)
    (hj : (s.tlbs.slots n)[j]? = some x) (hx : x.isLocked = true) (h : s.run k = .next t) :
    (t.tlbs.slots n)[j]? = some x :=
  (State.run_induction (P := fun u => u.keepsLocked ∧ (u.tlbs.slots n)[j]? = some x)
    (fun _ _ ⟨hk, hj⟩ hu => ⟨step_keepsLocked hk hu, step_keeps_locked_of_keepsLocked hk hu hj hx⟩)
    ⟨hk, hj⟩ h).2

/-! ## An access that hits reads neither memory nor the table base (R114) -/

/-- The machine with another main memory and another table base: other translation tables. -/
def State.withTables (s : State) (mem : Memory) (ttbr : Word) : State := { s with mem := mem, ttbr := ttbr }

theorem access_of_enabled {s : State} (hm : ¬ s.m = 0#1) (kind : AccessKind) (va : Word) (priv : Priv) :
    access kind va priv s = accessOn kind va priv s := if_neg hm

theorem accessOn_of_permUninstantiated {s : State} (hp : s.cfg.perm = .uninstantiated) (kind : AccessKind) (va : Word)
    (priv : Priv) : accessOn kind va priv s = .refused .permissionCheckOpen := if_pos hp

section Hit

variable {kind : AccessKind} {va : Word} {priv : Priv} {s t : State}

/-- The entry picked among the matching slots is the one used (R124). -/
theorem accessOn_of_pick_entry {e : TlbEntry} (hp : s.cfg.perm ≠ .uninstantiated)
    (hx : pick (Config.hitChoice s.draws) (hits (s.slotsFor kind) va) = some (.entry e)) :
    accessOn kind va priv s = .next (drawn (finishAccess kind va priv e s)) := by
  unfold State.slotsFor at hx
  simp [accessOn, hp, hx]

/-- A fault mark picked among the matching slots gives its abort (R116, R124). -/
theorem accessOn_of_pick_faultMark {base : Word} (hp : s.cfg.perm ≠ .uninstantiated)
    (hx : pick (Config.hitChoice s.draws) (hits (s.slotsFor kind) va) = some (.faultMark base)) :
    accessOn kind va priv s = .next (drawn (raiseAbort ⟨.translation, .sect, va, none⟩ kind s)) := by
  unfold State.slotsFor at hx
  simp [accessOn, hp, hx]

/-- The use of an entry reads neither memory nor the table base. -/
theorem finishAccess_withTables (e : TlbEntry) (mem : Memory) (ttbr : Word) :
    finishAccess kind va priv e (s.withTables mem ttbr) = (finishAccess kind va priv e s).withTables mem ttbr := by
  have hcheck : checkEntry (s.withTables mem ttbr) kind va priv e = checkEntry s kind va priv e := rfl
  unfold finishAccess
  rw [hcheck]
  cases checkEntry s kind va priv e <;> rfl

/-- With a matching slot, an enabled access does the same on any tables. -/
theorem accessOn_withTables_of_hit (hh : hits (s.slotsFor kind) va ≠ []) (h : accessOn kind va priv s = .next t)
    (mem : Memory) (ttbr : Word) : accessOn kind va priv (s.withTables mem ttbr) = .next (t.withTables mem ttbr) := by
  by_cases hp : s.cfg.perm = .uninstantiated
  · rw [accessOn_of_permUninstantiated hp] at h
    cases h
  have hp' : (s.withTables mem ttbr).cfg.perm ≠ .uninstantiated := hp
  cases hx : pick (Config.hitChoice s.draws) (hits (s.slotsFor kind) va) with
  | none => exact absurd (pick_eq_none.mp hx) hh
  | some x =>
    cases x with
    | unused => cases (mem_hits.mp (pick_mem hx)).2
    | entry e =>
      obtain rfl := Host.Outcome.next.inj ((accessOn_of_pick_entry hp hx).symm.trans h)
      rw [accessOn_of_pick_entry hp' hx, finishAccess_withTables]
      rfl
    | faultMark base =>
      obtain rfl := Host.Outcome.next.inj ((accessOn_of_pick_faultMark hp hx).symm.trans h)
      exact accessOn_of_pick_faultMark hp' hx

/-- With a matching slot, an access, enabled or not, does the same on any tables: it makes no walk. -/
theorem access_withTables_of_hit (hh : hits (s.slotsFor kind) va ≠ []) (h : access kind va priv s = .next t)
    (mem : Memory) (ttbr : Word) : access kind va priv (s.withTables mem ttbr) = .next (t.withTables mem ttbr) := by
  by_cases hm : s.m = 0#1
  · obtain rfl := Host.Outcome.next.inj ((if_pos hm).symm.trans h)
    exact if_pos hm
  · have hm' : ¬ (s.withTables mem ttbr).m = 0#1 := hm
    rw [access_of_enabled hm] at h
    rw [access_of_enabled hm']
    exact accessOn_withTables_of_hit hh h mem ttbr

end Hit

/-- Settles O45: every step keeps the slot of the locked entry, so it still matches after the run, and an access with a
matching slot reads neither memory nor the table base. -/
theorem lockedRegionNeverMisses : Obligations.LockedRegionNeverMisses := by
  intro k s t n x va hk hmem hx hva hrun
  obtain ⟨j, hj⟩ := List.mem_iff_getElem?.mp hmem
  have hstays : (t.tlbs.slots n)[j]? = some x := run_keeps_locked hk hj hx hrun
  have hhit : x ∈ hits (t.tlbs.slots n) va := mem_hits.mpr ⟨List.mem_of_getElem? hstays, hva⟩
  refine ⟨hhit, fun kind priv mem ttbr u hn h => ?_⟩
  rw [exec_accessInstr] at h ⊢
  subst hn
  exact access_withTables_of_hit (List.ne_nil_of_mem hhit) h mem ttbr

end Sys2Proof.Machine

/-! # Proofs about control operations: the table base, and the flush -/

namespace Sys2Proof.Machine

/-! ## The table base (R142) -/

/-- Of the table base, the descriptor address takes bits [31:14] only (R84, R164). -/
theorem l1Address_congr {ttbr ttbr' : Word} (h : ttbr'.extractLsb' 14 18 = ttbr.extractLsb' 14 18) (va : Word) :
    l1Address ttbr' va = l1Address ttbr va := by
  rw [l1Address, l1Address, h]

/-- So walks from two table bases with the same bits [31:14] are the same. -/
theorem tableWalk_congr_tableBase {ttbr ttbr' : Word} (h : ttbr'.extractLsb' 14 18 = ttbr.extractLsb' 14 18)
    (s : State) (va : Word) : tableWalk { s with ttbr := ttbr' } va = tableWalk { s with ttbr := ttbr } va := by
  rw [tableWalk, tableWalk, l1Address_congr h]

/-- Settles O33: the low bits are those of `ttbrAfter`, and no walk takes them into its descriptor address. -/
theorem writeTtbrSelectsTheTable : Obligations.WriteTtbrSelectsTheTable := by
  intro v s
  refine ⟨if v.extractLsb' 0 14 = 0#14 then 0#14 else Config.ttbrLow s.draws, rfl, fun hlow => if_pos hlow, fun va => ?_⟩
  exact tableWalk_congr_tableBase BitVec.extractLsb'_append_eq_left s va

/-! ## What a flush leaves of the TLBs (R144, R145) -/

@[simp] theorem Tlbs.isSplit_map (f : List Slot → List Slot) (t : Tlbs) : (t.map f).isSplit = t.isSplit := by
  cases t <;> rfl

@[simp] theorem Tlbs.nameFor_map (f : List Slot → List Slot) (t : Tlbs) (kind : AccessKind) :
    (t.map f).nameFor kind = t.nameFor kind := by
  cases t <;> cases kind <;> rfl

@[simp] theorem length_flushSlots (r : Bool) (slots : List Slot) : (flushSlots r slots).length = slots.length :=
  List.length_map _

/-- Slot by slot: a locked slot that the parameter spares stays, every other is unused. -/
theorem getElem?_flushSlots {r : Bool} {slots : List Slot} {j : Nat} {x : Slot} (hj : slots[j]? = some x) :
    (flushSlots r slots)[j]? = some (if x.isLocked = true ∧ r = false then x else .unused) := by
  simp [flushSlots, hj]

/-- What a flush leaves matches no address that no locked slot covers. -/
theorem hits_flushSlots_eq_nil {r : Bool} {slots : List Slot} {va : Word}
    (h : ∀ x ∈ slots, x.isLocked = true → x.covers va = false) : hits (flushSlots r slots) va = [] := by
  refine hits_eq_nil.mpr fun y hy => ?_
  obtain rfl | ⟨hmem, hlocked, -⟩ := mem_flushSlots hy
  · rfl
  · exact h y hmem hlocked

/-- The machine after `TLB.FLUSH`. -/
def State.flushed (s : State) : State :=
  answer .done { s with tlbs := s.tlbs.map (flushSlots s.cfg.flushRemovesLocked) }

theorem exec_tlbFlush (s : State) : exec .tlbFlush s = .next s.flushed := rfl

theorem State.flushed_slots (s : State) (n : TlbName) :
    s.flushed.tlbs.slots n = flushSlots s.cfg.flushRemovesLocked (s.tlbs.slots n) :=
  Tlbs.slots_map (flushSlots_nil _) _ _

theorem State.flushed_slotsFor (s : State) (kind : AccessKind) :
    s.flushed.slotsFor kind = flushSlots s.cfg.flushRemovesLocked (s.slotsFor kind) := by
  have hname : s.flushed.tlbs.nameFor kind = s.tlbs.nameFor kind := Tlbs.nameFor_map _ _ _
  rw [State.slotsFor, hname, State.flushed_slots, State.slotsFor]

/-! ## An enabled access that misses answers as the machine without a TLB (R115) -/

section Miss

variable {kind : AccessKind} {va : Word} {priv : Priv} {s : State}

theorem access_of_miss (hs : s.checks) (hh : hits (s.slotsFor kind) va = []) :
    access kind va priv s = accessMiss kind va priv s := by
  obtain ⟨hm, hperm⟩ := hs
  rw [access_of_enabled (by simp [hm]), accessOn_miss hperm hh]

/-- A fill changes nothing the check of an entry reads. -/
theorem entryAnswer_fillTlb (x : Slot) (e : TlbEntry) :
    (fillTlb kind x s).entryAnswer kind va priv e = s.entryAnswer kind va priv e := rfl

theorem accessMiss_of_entry {e : TlbEntry} (hw : tableWalk s va = .entry e) :
    accessMiss kind va priv s = .next (drawn (finishAccess kind va priv e (fillTlb kind (.entry e) s))) := by
  simp [accessMiss, hw]

theorem accessMiss_of_fault {level : Level} {domain : Option (BitVec 4)} (hw : tableWalk s va = .fault level domain) :
    accessMiss kind va priv s =
      .next (drawn (raiseAbort ⟨.translation, level, va, domain⟩ kind (keepFault kind level va s))) := by
  simp [accessMiss, hw]

theorem accessMiss_of_refused {why : WalkRefusal} (hw : tableWalk s va = .refused why) :
    accessMiss kind va priv s = .refused (.walkRefused why) := by
  simp [accessMiss, hw]

/-- A miss gives the answer of walking the tables and checking, when there is one. -/
theorem accessMiss_of_walkAnswer {r : Response} (h : s.walkAnswer kind va priv = some r) :
    ∃ u, accessMiss kind va priv s = .next u ∧ u.response = some r := by
  unfold State.walkAnswer at h
  cases hw : tableWalk s va with
  | entry e =>
    refine ⟨_, accessMiss_of_entry hw, ?_⟩
    rw [drawn_response, finishAccess_response, entryAnswer_fillTlb]
    simpa [hw] using h
  | fault level domain =>
    refine ⟨_, accessMiss_of_fault hw, ?_⟩
    simpa [hw] using h
  | refused why => simp [hw] at h

end Miss

/-- Settles O34: a flush acts on each TLB slot by slot, so that an address no locked slot covers misses; a miss walks
the tables as they are, whatever they are. -/
theorem flushRemovesCachedWalks : Obligations.FlushRemovesCachedWalks := by
  intro s
  refine ⟨s.flushed, exec_tlbFlush s, rfl, Tlbs.isSplit_map _ _, fun n => ?_, fun kind va priv mem ttbr hs hva => ?_⟩
  · rw [State.flushed_slots]
    exact ⟨length_flushSlots _ _, fun _ _ => getElem?_flushSlots, fun _ => hits_flushSlots_eq_nil⟩
  · have hmiss : hits (s.flushed.slotsFor kind) va = [] := by
      rw [State.flushed_slotsFor]
      exact hits_flushSlots_eq_nil hva
    have hwalks : exec (accessInstr kind va priv) (s.flushed.withTables mem ttbr) =
        accessMiss kind va priv (s.flushed.withTables mem ttbr) := by
      rw [exec_accessInstr, access_of_miss (s := s.flushed.withTables mem ttbr) hs hmiss]
    exact ⟨fun r hr => hwalks ▸ accessMiss_of_walkAnswer hr, fun why hw => hwalks.trans (accessMiss_of_refused hw)⟩

end Sys2Proof.Machine

/-! # Proofs about the table walk: fault and section descriptors -/

namespace Sys2Proof.Machine

/-! ## A fault descriptor (R166) -/

/-- A walk that fetches a fault word ends in the section-level fault, whatever its other bits are. -/
theorem tableWalk_of_faultBits {s : State} {va : Word} (h : kindBits (s.l1Word va) = 0b00#2) :
    tableWalk s va = .fault .sect none :=
  congrArg (descriptorResult s.cfg s.mem va) (decodeDescriptor_of_faultBits h)

/-- A fault mark kept before the abort is raised changes nothing the record is made from (R195). -/
@[simp] theorem recordAbort_keepFault (a : Abort) (kind : AccessKind) (level : Level) (va : Word) (s : State) :
    recordAbort (keepFault kind level va s) a kind = recordAbort s a kind := by
  simp only [recordAbort, keepFault_cfg, keepFault_abortStatus, keepFault_draws]

/-- Settles O6: the walk of a fault word ends in the section-level translation fault, with which the miss aborts. -/
theorem faultDescriptorAborts : Obligations.FaultDescriptorAborts := by
  refine ⟨fun ignored s => exec_descriptor (.fault ignored) s, fun kind va priv s hs hmiss hword => ?_⟩
  have habort := (access_of_miss (priv := priv) hs hmiss).trans (accessMiss_of_fault (tableWalk_of_faultBits hword))
  exact ⟨_, (exec_accessInstr kind va priv s).trans habort, by simp, by simp⟩

/-! ## A section descriptor (R170, R173) -/

/-- Bits that are zero, or that the parameter ignores, do not make the machine refuse a descriptor (R173). -/
theorem sbzRefused_eq_false {p : Config.Params} {sbzSet : Bool} (h : sbzSet = false ∨ p.sbzNonzero = .ignore) :
    sbzRefused p sbzSet = false := by
  rcases h with h | h <;> simp [sbzRefused, h]

/-- A section descriptor whose should-be-zero bits are zero or ignored gives its entry. -/
theorem walkSection_of_sbz {p : Config.Params} {sbzHi : BitVec 8} {sbzLo : BitVec 1}
    (h : (sbzHi = 0#8 ∧ sbzLo = 0#1) ∨ p.sbzNonzero = .ignore) (base : BitVec 12) (ap : BitVec 2) (domain : BitVec 4)
    (imp c b : BitVec 1) (va : Word) :
    walkSection p base sbzHi ap sbzLo domain imp c b va = .entry (sectionEntry base ap domain imp c b va) := by
  have hsbz : (sbzHi != 0#8 || sbzLo != 0#1) = false ∨ p.sbzNonzero = .ignore :=
    h.imp_left fun ⟨hHi, hLo⟩ => by simp [hHi, hLo]
  simp [walkSection, sbzRefused_eq_false hsbz]

/-- Settles O7: the word decodes to a section descriptor, whose walk gives `sectionEntry` for the address walked. -/
theorem sectionDescriptorYieldsItsEntry : Obligations.SectionDescriptorYieldsItsEntry := by
  intro d s hkind hsbz
  rw [exec_descriptor, decodeDescriptor_of_sectionBits hkind, descriptorResult, walkSection_of_sbz hsbz]
  rfl

end Sys2Proof.Machine

/-! # Proofs about the encoding: decoding and encoding are inverse to each other -/

namespace Sys2Proof

open Sys2Proof.Machine

/-! ## Decoding an encoded descriptor, one equation per row (R87 to R90)

Each field is found by stripping the fields below it from the concatenation. -/

@[simp] theorem decodeDescriptor_faultWord (ignored : BitVec 30) :
    decodeDescriptor (faultWord ignored) = .fault ignored := by
  rw [decodeDescriptor_of_faultBits (kindBits_faultWord _)]
  exact congrArg _ BitVec.extractLsb'_append_eq_left

@[simp] theorem decodeDescriptor_coarseWord (base : BitVec 22) (sbz : BitVec 1) (domain : BitVec 4) (imp : BitVec 3) :
    decodeDescriptor (coarseWord base sbz domain imp) = .coarse base sbz domain imp := by
  rw [decodeDescriptor_of_coarseBits (kindBits_coarseWord _ _ _ _), coarseWord]
  congr 1
  all_goals repeat rw [BitVec.extractLsb'_append_eq_of_le (by decide)]
  · exact BitVec.extractLsb'_eq_self
  all_goals exact BitVec.extractLsb'_append_eq_right

@[simp] theorem decodeDescriptor_sectionWord (base : BitVec 12) (sbzHi : BitVec 8) (ap : BitVec 2) (sbzLo : BitVec 1)
    (domain : BitVec 4) (imp c b : BitVec 1) :
    decodeDescriptor (sectionWord base sbzHi ap sbzLo domain imp c b) = .sect base sbzHi ap sbzLo domain imp c b := by
  rw [decodeDescriptor_of_sectionBits (kindBits_sectionWord _ _ _ _ _ _ _ _), sectionWord]
  congr 1
  all_goals repeat rw [BitVec.extractLsb'_append_eq_of_le (by decide)]
  · exact BitVec.extractLsb'_eq_self
  all_goals exact BitVec.extractLsb'_append_eq_right

@[simp] theorem decodeDescriptor_fineWord (base : BitVec 20) (sbz : BitVec 3) (domain : BitVec 4) (imp : BitVec 3) :
    decodeDescriptor (fineWord base sbz domain imp) = .fine base sbz domain imp := by
  rw [decodeDescriptor_of_fineBits (kindBits_fineWord _ _ _ _), fineWord]
  congr 1
  all_goals repeat rw [BitVec.extractLsb'_append_eq_of_le (by decide)]
  · exact BitVec.extractLsb'_eq_self
  all_goals exact BitVec.extractLsb'_append_eq_right

/-- The word of a descriptor row decodes to that row; the operations have no word (R94). -/
theorem toInstr_decodeDescriptor_of_encode {i : Instr} {w : Word} (h : encode i = some w) :
    (decodeDescriptor w).toInstr = i := by
  cases i <;> cases h
  case l1Fault => rw [decodeDescriptor_faultWord, Descriptor.toInstr]
  case l1Coarse => rw [decodeDescriptor_coarseWord, Descriptor.toInstr]
  case l1Section => rw [decodeDescriptor_sectionWord, Descriptor.toInstr]
  case l1Fine => rw [decodeDescriptor_fineWord, Descriptor.toInstr]

/-- Settles O1: the bytes make the word again in either byte order, and each row's word decodes to the row. -/
theorem decodeOfEncodeIsTheInstruction : Obligations.DecodeOfEncodeIsTheInstruction := by
  intro e i w rest h
  rw [decodeBytes_bytesOfWord, toInstr_decodeDescriptor_of_encode h]

/-! ## Encoding a decoded word, one equation per kind: its fields joined again (R87 to R90) -/

theorem faultWord_fields {d : Word} (h : kindBits d = 0b00#2) : faultWord (d.extractLsb' 2 30) = d := by
  rw [faultWord, ← h, kindBits, BitVec.extractLsb'_append_extractLsb'_eq_extractLsb' (by decide)]
  exact BitVec.extractLsb'_eq_self

theorem coarseWord_fields {d : Word} (h : kindBits d = 0b01#2) :
    coarseWord (d.extractLsb' 10 22) (d.extractLsb' 9 1) (d.extractLsb' 5 4) (d.extractLsb' 2 3) = d := by
  rw [coarseWord, ← h, kindBits]
  repeat rw [BitVec.extractLsb'_append_extractLsb'_eq_extractLsb' (by decide)]
  exact BitVec.extractLsb'_eq_self

theorem sectionWord_fields {d : Word} (h : kindBits d = 0b10#2) :
    sectionWord (d.extractLsb' 20 12) (d.extractLsb' 12 8) (d.extractLsb' 10 2) (d.extractLsb' 9 1)
      (d.extractLsb' 5 4) (d.extractLsb' 4 1) (d.extractLsb' 3 1) (d.extractLsb' 2 1) = d := by
  rw [sectionWord, ← h, kindBits]
  repeat rw [BitVec.extractLsb'_append_extractLsb'_eq_extractLsb' (by decide)]
  exact BitVec.extractLsb'_eq_self

theorem fineWord_fields {d : Word} (h : kindBits d = 0b11#2) :
    fineWord (d.extractLsb' 12 20) (d.extractLsb' 9 3) (d.extractLsb' 5 4) (d.extractLsb' 2 3) = d := by
  rw [fineWord, ← h, kindBits]
  repeat rw [BitVec.extractLsb'_append_extractLsb'_eq_extractLsb' (by decide)]
  exact BitVec.extractLsb'_eq_self

/-- Settles O2: by the kind bits, the fields decoded and the kind bits are all the bits of the word. -/
theorem encodeOfDecodeIsTheWord : Obligations.EncodeOfDecodeIsTheWord := by
  intro d
  rcases kindBits_cases d with h | h | h | h
  · rw [decodeDescriptor_of_faultBits h]
    exact congrArg some (faultWord_fields h)
  · rw [decodeDescriptor_of_coarseBits h]
    exact congrArg some (coarseWord_fields h)
  · rw [decodeDescriptor_of_sectionBits h]
    exact congrArg some (sectionWord_fields h)
  · rw [decodeDescriptor_of_fineBits h]
    exact congrArg some (fineWord_fields h)

/-- Settles O4, by decoding each of the five words. -/
theorem specWordsDecode : Obligations.SpecWordsDecode := by
  refine ⟨?_, ?_, ?_, ?_, ?_⟩ <;> decide

end Sys2Proof

/-! # Proofs about frames: what the operations leave unchanged -/

namespace Sys2Proof.Machine

/-! ## The shared updates, in one equation each -/

/-- The use of an entry gives its answer, records an abort and changes nothing else (R118 to R120, R195). -/
theorem finishAccess_eq (kind : AccessKind) (va : Word) (priv : Priv) (e : TlbEntry) (s : State) :
    finishAccess kind va priv e s =
      { s with
        response := some (s.entryAnswer kind va priv e)
        abortStatus := s.statusAfter kind (s.entryAnswer kind va priv e) } := by
  unfold finishAccess State.entryAnswer
  split <;> rename_i h <;> simp only [h] <;> rfl

/-- Keeping a fault mark changes the TLBs at most. -/
theorem keepFault_eq (kind : AccessKind) (level : Level) (va : Word) (s : State) :
    keepFault kind level va s = { s with tlbs := (keepFault kind level va s).tlbs } := by
  rcases keepFault_cases kind level va s with h | ⟨-, -, h⟩ <;> rw [h]
  rfl

/-! ## Accesses and locks -/

/-- An access writes the TLBs, the abort status, the answer and the draw counter at most. -/
theorem access_frame {kind : AccessKind} {va : Word} {priv : Priv} {s t : State} (h : access kind va priv s = .next t) :
    t = { s with tlbs := t.tlbs, abortStatus := t.abortStatus, response := t.response, draws := t.draws } := by
  obtain ⟨-, rfl⟩ | ⟨-, ⟨e, -, rfl⟩ | ⟨base, -, rfl⟩ | ⟨-, ⟨e, -, rfl⟩ | ⟨level, domain, -, rfl⟩⟩⟩ := access_cases h
  · rfl
  · rw [finishAccess_eq]; rfl
  · rfl
  · rw [finishAccess_eq]; rfl
  · rw [keepFault_eq]; rfl

/-- `TLB.LOCK` writes the TLBs, the answer and the draw counter at most. -/
theorem execTlbLock_frame {n : TlbName} {va : Word} {s t : State} (h : execTlbLock n va s = .next t) :
    t = { s with tlbs := t.tlbs, response := t.response, draws := t.draws } := by
  obtain ⟨-, -, -, ⟨_, _, -, rfl⟩ | ⟨_, _, -, -, -, rfl⟩⟩ := execTlbLock_cases h <;> rfl

/-- A request writes none of the parameters, the placeholder registers, main memory, the walk hardware's fields and the
inputs. -/
theorem exec_request_frame {r : Request} {s t : State} (h : exec (requestInstr r) s = .next t) :
    t = { s with m := t.m, ttbr := t.ttbr, abortStatus := t.abortStatus, tlbs := t.tlbs, response := t.response,
                 draws := t.draws } := by
  obtain ⟨kind, va, priv, -, h⟩ | ⟨b, -, rfl⟩ | ⟨v, -, rfl⟩ | ⟨-, rfl⟩ | ⟨m, va, -, h⟩ | ⟨-, rfl⟩ :=
    exec_request_cases h
  · rw [access_frame h]
  · rfl
  · rfl
  · rfl
  · rw [execTlbLock_frame h]
  · rfl

/-! ## The TLBs -/

section Tlbs

variable {kind : AccessKind} {va : Word} {priv : Priv} {s t : State}

/-- All an access can do to the TLBs (R113, R116): nothing, or one fill of the TLB it uses, on an enabled miss, with the
walk's entry or the fault mark of the megabyte. -/
theorem access_tlbs_cases (h : access kind va priv s = .next t) :
    t.tlbs = s.tlbs ∨
      (s.checks ∧ hits (s.slotsFor kind) va = [] ∧ ∃ x : Slot, t.tlbs = (fillTlb kind x s).tlbs ∧
        ((∃ e, tableWalk s va = .entry e ∧ x = .entry e) ∨
          (∃ domain, tableWalk s va = .fault .sect domain ∧ s.cfg.tlbCachesFaults = true ∧
            x = .faultMark (regionBase .sect va)))) := by
  obtain ⟨-, rfl⟩ | ⟨hs, ⟨e, -, rfl⟩ | ⟨base, -, rfl⟩ | ⟨hh, ⟨e, hw, rfl⟩ | ⟨level, domain, hw, rfl⟩⟩⟩ := access_cases h
  · exact .inl rfl
  · exact .inl (by simp)
  · exact .inl (by simp)
  · exact .inr ⟨hs, hh, .entry e, by simp, .inl ⟨e, hw, rfl⟩⟩
  · rw [drawn_tlbs, raiseAbort_tlbs]
    rcases keepFault_cases kind level va s with hk | ⟨rfl, hc, hk⟩ <;> rw [hk]
    · exact .inl rfl
    · exact .inr ⟨hs, hh, _, rfl, .inr ⟨domain, hw, hc, rfl⟩⟩

end Tlbs

end Sys2Proof.Machine

/-! # Proofs about invariants: legal slots, locked slots, and runs of a disabled machine -/

namespace Sys2Proof.Machine

/-! ## A property of every slot, kept by what changes the TLBs -/

section AllSlots

variable {P : Slot → Prop} {s t : State}

/-- Filling one TLB keeps a property of every slot that the new content has. -/
theorem Tlbs.forall_withSlots {u : Tlbs} {n : TlbName} {new : List Slot} {x : Slot} (hu : ∀ y ∈ u.allSlots, P y)
    (hfill : FilledWith (u.slots n) new x) (hx : P x) : ∀ y ∈ (u.withSlots n new).allSlots, P y := by
  intro y hy
  rcases Tlbs.mem_allSlots_withSlots hy with hnew | hold
  · rcases hfill.mem hnew with rfl | hold
    · exact hx
    · exact hu y (Tlbs.mem_allSlots_of_slots hold)
  · exact hu y hold

theorem fillTlb_forall {kind : AccessKind} {x : Slot} (hs : ∀ y ∈ s.tlbs.allSlots, P y) (hx : P x) :
    ∀ y ∈ (fillTlb kind x s).tlbs.allSlots, P y :=
  Tlbs.forall_withSlots hs (place_filledWith _ _ x) hx

/-- A flush keeps a property of every slot that an unused one has. -/
theorem flush_forall {u : Tlbs} {r : Bool} (hu : ∀ y ∈ u.allSlots, P y) (hunused : P .unused) :
    ∀ y ∈ (u.map (flushSlots r)).allSlots, P y := by
  intro y hy
  obtain ⟨n, hn⟩ := Tlbs.mem_allSlots.mp hy
  rw [Tlbs.slots_map (flushSlots_nil r)] at hn
  obtain rfl | ⟨hold, -, -⟩ := mem_flushSlots hn
  · exact hunused
  · exact hu y (Tlbs.mem_allSlots_of_slots hold)

/-- An access keeps a property of every slot that what its walk leaves has. -/
theorem access_forall {kind : AccessKind} {va : Word} {priv : Priv} (h : access kind va priv s = .next t)
    (hs : ∀ y ∈ s.tlbs.allSlots, P y) (hentry : ∀ e, tableWalk s va = .entry e → P (.entry e))
    (hmark : ∀ domain, tableWalk s va = .fault .sect domain → s.cfg.tlbCachesFaults = true →
      P (.faultMark (regionBase .sect va))) : ∀ y ∈ t.tlbs.allSlots, P y := by
  obtain ht | ⟨-, -, x, ht, ⟨e, hw, rfl⟩ | ⟨domain, hw, hc, rfl⟩⟩ := access_tlbs_cases h <;> rw [ht]
  · exact hs
  · exact fillTlb_forall hs (hentry e hw)
  · exact fillTlb_forall hs (hmark domain hw hc)

/-- `TLB.LOCK` keeps a property of every slot that its walk's entry, locked, has. -/
theorem execTlbLock_forall {n : TlbName} {va : Word} (h : execTlbLock n va s = .next t)
    (hs : ∀ y ∈ s.tlbs.allSlots, P y) (hentry : ∀ e, tableWalk s va = .entry e → P (.entry { e with locked := true })) :
    ∀ y ∈ t.tlbs.allSlots, P y := by
  obtain ⟨-, -, -, ⟨_, _, -, rfl⟩ | ⟨e, i, hw, hi, hfree, rfl⟩⟩ := execTlbLock_cases h
  · exact hs
  · exact Tlbs.forall_withSlots hs (.inl ⟨i, hi, hfree, rfl⟩) (hentry e hw)

end AllSlots

/-! ## The invariant -/

/-- The entry of a walk is legal (R29). -/
theorem legal_of_tableWalk {s : State} {va : Word} {e : TlbEntry} (hw : tableWalk s va = .entry e) : e.legal = true := by
  have hsound := tableWalk_sound s va
  rw [hw] at hsound
  exact hsound.1

/-- The entry of a walk is not locked (R170). -/
theorem locked_of_tableWalk {s : State} {va : Word} {e : TlbEntry} (hw : tableWalk s va = .entry e) :
    e.locked = false := by
  have hsound := tableWalk_sound s va
  rw [hw] at hsound
  exact hsound.2

/-- A request keeps every slot legal: what it places is a walk's entry, or a fault mark where the parameter allows it. -/
theorem exec_request_legal {r : Request} {s t : State} (h : exec (requestInstr r) s = .next t)
    (hs : s.tlbs.legal s.cfg.tlbCachesFaults) : t.tlbs.legal s.cfg.tlbCachesFaults := by
  obtain ⟨kind, va, priv, -, h⟩ | ⟨b, -, rfl⟩ | ⟨v, -, rfl⟩ | ⟨-, rfl⟩ | ⟨n, va, -, h⟩ | ⟨-, rfl⟩ :=
    exec_request_cases h
  · exact access_forall h hs (fun e hw => legal_of_tableWalk hw)
      (fun _ _ hc => by simp [Slot.legal, hc, regionBase_aligned])
  · exact hs
  · exact hs
  · exact flush_forall hs rfl
  · exact execTlbLock_forall h hs (fun e hw => legal_of_tableWalk (e := e) hw)
  · exact hs

/-- A request keeps the invariant: it writes neither memory nor the walk's result, and keeps the slots legal. -/
theorem exec_request_inv {r : Request} {s t : State} (h : exec (requestInstr r) s = .next t) (hs : s.Inv) : t.Inv := by
  have hlegal := exec_request_legal h hs.tlbs_legal
  rw [exec_request_frame h]
  exact ⟨hs.mem_wf, hlegal, hs.walk_sound⟩

/-- Settles O43: a descriptor run alone leaves a sound result, a request keeps the invariant, and a store keeps memory
in its canonical form. -/
theorem stepKeepsTheInvariant : Obligations.StepKeepsTheInvariant := by
  intro s t hs h
  obtain ⟨-, rfl⟩ | ⟨-, ⟨-, rfl⟩ | ⟨r, rest, -, h⟩ | ⟨pa, w, _, -, rfl⟩ | ⟨pa, b, _, -, rfl⟩ | ⟨_, _, -, rfl⟩ |
    ⟨_, _, -, rfl⟩⟩ := step_cases h
  · exact ⟨hs.mem_wf, hs.tlbs_legal, fun r hr => Option.some.inj hr ▸ tableWalk_sound s s.walkVa⟩
  · exact hs
  · exact exec_request_inv h ⟨hs.mem_wf, hs.tlbs_legal, hs.walk_sound⟩
  · exact ⟨wf_writeWord _ hs.mem_wf pa w, hs.tlbs_legal, hs.walk_sound⟩
  · exact ⟨wf_storeByte hs.mem_wf pa b, hs.tlbs_legal, hs.walk_sound⟩
  · exact ⟨hs.mem_wf, hs.tlbs_legal, hs.walk_sound⟩
  · exact ⟨hs.mem_wf, hs.tlbs_legal, hs.walk_sound⟩

/-- What a slot is taken as at reset is legal (log entry 3). -/
theorem legal_legalOrUnused (cachesFaults : Bool) (x : Slot) :
    (x.legalOrUnused cachesFaults).legal cachesFaults = true := by
  unfold Slot.legalOrUnused
  split
  · assumption
  · rfl

/-- The slots after reset are legal, whatever the TLBs hold. -/
theorem legal_map_legalOrUnused (cachesFaults : Bool) (u : Tlbs) :
    (u.map (fun slots => slots.map (Slot.legalOrUnused cachesFaults))).legal cachesFaults := by
  intro y hy
  obtain ⟨n, hn⟩ := Tlbs.mem_allSlots.mp hy
  rw [Tlbs.slots_map List.map_nil] at hn
  obtain ⟨x, -, rfl⟩ := List.mem_map.mp hn
  exact legal_legalOrUnused cachesFaults x

theorem State.resetOf_inv (cfg : Config.Params) : (State.resetOf cfg).Inv :=
  ⟨wf_resetOf_mem cfg, legal_map_legalOrUnused _ _, fun _ hr => nomatch hr⟩

/-- Settles O42: after reset memory lists nothing, no walk has run, and a slot that is not legal is taken as unused. -/
theorem resetMeetsTheInvariant : Obligations.ResetMeetsTheInvariant := ⟨State.resetOf_inv _, State.resetOf_inv⟩

/-- Settles O44: `step_keeps_locked`. -/
theorem lockedSlotStaysOverAStep : Obligations.LockedSlotStaysOverAStep :=
  fun _ _ _ _ _ h hj hx hf => step_keeps_locked h hj hx hf

/-! ## Runs of a disabled machine -/

/-- The machine `t` is disabled, reached from `s` by steps that enabled nothing: no abort since, and the registers and
TLBs of `s` but for the writes and flushes among its inputs. -/
structure State.FlatSince (s t : State) : Prop where
  disabled : t.m = 0#1
  abortStatus : t.abortStatus = s.abortStatus
  noAbort : ∀ a, t.response ≠ some (.abort a)
  tlbs : .request .flush ∉ s.inputs → t.tlbs = s.tlbs
  ttbr : (∀ v, .request (.writeTtbr v) ∉ s.inputs) → t.ttbr = s.ttbr
  inputs : t.inputs <:+ s.inputs

/-- A request of a disabled machine, other than the one that enables it, leaves it disabled, aborts nothing, and writes
the TLBs or `TTBR` only as a flush or a write of `TTBR` (R112, R141 to R146). -/
theorem exec_request_of_disabled {r : Request} {s t : State} (hm : s.m = 0#1) (hr : r ≠ .writeM 1#1)
    (h : exec (requestInstr r) s = .next t) :
    t.m = 0#1 ∧ t.abortStatus = s.abortStatus ∧ (∀ a, t.response ≠ some (.abort a)) ∧
      (r ≠ .flush → t.tlbs = s.tlbs) ∧ ((∀ v, r ≠ .writeTtbr v) → t.ttbr = s.ttbr) := by
  obtain ⟨kind, va, priv, rfl, -⟩ | ⟨b, rfl, rfl⟩ | ⟨v, rfl, rfl⟩ | ⟨rfl, rfl⟩ | ⟨n, va, rfl, hlock⟩ | ⟨rfl, rfl⟩ :=
    exec_request_cases h
  · obtain rfl := Host.Outcome.next.inj ((exec_accessInstr_of_disabled hm kind va priv).symm.trans h)
    simp [hm]
  · have hb : b = 0#1 := by
      by_contra hb
      exact hr (congrArg _ (m_eq_one (s := { s with m := b }) hb))
    simp [hb]
  · simp [hm]
  · simp [hm]
  · obtain ⟨-, hm', -⟩ := execTlbLock_cases hlock
    rw [hm] at hm'
    cases hm'
  · simp [hm]

theorem step_flatSince {s₀ s t : State} (hno : .request (.writeM 1#1) ∉ s₀.inputs) (hs : s₀.FlatSince s)
    (h : step s = .next t) : s₀.FlatSince t := by
  have hin : t.inputs <:+ s₀.inputs := (step_cfg_inputs h).2.trans hs.inputs
  obtain ⟨-, rfl⟩ | ⟨-, ⟨-, rfl⟩ | ⟨r, rest, hi, h⟩ | ⟨_, _, _, -, rfl⟩ | ⟨_, _, _, -, rfl⟩ | ⟨_, _, -, rfl⟩ |
    ⟨_, _, -, rfl⟩⟩ := step_cases h
  case inr.inr.inl =>
    have hmem : .request r ∈ s₀.inputs := hs.inputs.subset (hi ▸ List.mem_cons_self)
    obtain ⟨hm, habort, hresp, htlbs, httbr⟩ :=
      exec_request_of_disabled (s := { s with inputs := rest }) hs.disabled (fun hr => hno (hr ▸ hmem)) h
    exact ⟨hm, habort.trans hs.abortStatus, hresp,
      fun hf => (htlbs fun hr => hf (hr ▸ hmem)).trans (hs.tlbs hf),
      fun hv => (httbr fun v hr => hv v (hr ▸ hmem)).trans (hs.ttbr hv), hin⟩
  all_goals exact ⟨hs.disabled, hs.abortStatus, hs.noAbort, hs.tlbs, hs.ttbr, hin⟩

/-- Settles O47, by induction on the steps of the run: no request but `CP15.WRITE_M(1)` enables the machine, and a
disabled machine aborts nothing. -/
theorem disabledRunStaysFlat : Obligations.DisabledRunStaysFlat := by
  intro k s t hm hno hresp hrun
  have hs : s.FlatSince s := ⟨hm, rfl, hresp, fun _ => rfl, fun _ => rfl, List.suffix_rfl⟩
  have ht : s.FlatSince t := State.run_induction (fun _ _ hu hstep => step_flatSince hno hu hstep) hs hrun
  exact ⟨ht.disabled, ht.abortStatus, ht.noAbort, ht.tlbs, ht.ttbr⟩

end Sys2Proof.Machine

/-! # Proofs about the table walk: page descriptors, should-be-zero bits, and what a walk reads -/

namespace Sys2Proof.Machine

/-! ## Page descriptors: coarse and fine words in one equation (R88, R90, R168, R169) -/

/-- The kind bits of the descriptor that gives the table (R86). -/
def TableKind.code : TableKind → BitVec 2
  | .coarse => 0b01#2
  | .fine => 0b11#2

/-- A should-be-zero bit of the descriptor that gives the table is set (R88, R90). -/
def TableKind.sbzSet : TableKind → Word → Bool
  | .coarse, d => d.extractLsb' 9 1 != 0#1
  | .fine, d => d.extractLsb' 9 3 != 0#3

/-- A page descriptor is refused for its should-be-zero bits, or it is `P_L2_WALK` on its own word. -/
theorem descriptorResult_of_table {table : TableKind} {d : Word} (h : kindBits d = table.code) (p : Config.Params)
    (mem : Memory) (va : Word) :
    descriptorResult p mem va (decodeDescriptor d) =
      if sbzRefused p (table.sbzSet d) then .refused .sbzNonzero
      else secondLevelWalk p mem table d (d.extractLsb' 5 4) (d.extractLsb' 2 3) va := by
  cases table with
  | coarse => rw [decodeDescriptor_of_coarseBits h, descriptorResult, walkCoarse, coarseWord_fields h]; rfl
  | fine => rw [decodeDescriptor_of_fineBits h, descriptorResult, walkFine, fineWord_fields h]; rfl

/-- With should-be-zero bits zero or ignored, a page descriptor is `P_L2_WALK` on its own word. -/
theorem descriptorResult_of_table_of_sbz {table : TableKind} {d : Word} {p : Config.Params}
    (h : kindBits d = table.code) (hsbz : table.sbzSet d = false ∨ p.sbzNonzero = .ignore) (mem : Memory) (va : Word) :
    descriptorResult p mem va (decodeDescriptor d) =
      secondLevelWalk p mem table d (d.extractLsb' 5 4) (d.extractLsb' 2 3) va := by
  rw [descriptorResult_of_table h, sbzRefused_eq_false hsbz]
  rfl

/-- The hypothesis of the statements on page descriptors, as one on `TableKind.sbzSet`. -/
theorem TableKind.sbzSet_eq_false {table : TableKind} {d : Word}
    (h : match table with | .coarse => d.extractLsb' 9 1 = 0#1 | .fine => d.extractLsb' 9 3 = 0#3) :
    table.sbzSet d = false := by
  cases table <;> simpa [TableKind.sbzSet] using h

/-! ## Should-be-zero bits under refuse (R92, R173) -/

theorem sbzRefused_eq_true {p : Config.Params} (hp : p.sbzNonzero = .refuse) {sbzSet : Bool} (h : sbzSet = true) :
    sbzRefused p sbzSet = true := by
  simp [sbzRefused, hp, h]

theorem walkSection_of_sbzSet {p : Config.Params} {sbzHi : BitVec 8} {sbzLo : BitVec 1} (hp : p.sbzNonzero = .refuse)
    (h : sbzHi ≠ 0#8 ∨ sbzLo ≠ 0#1) (base : BitVec 12) (ap : BitVec 2) (domain : BitVec 4) (imp c b : BitVec 1)
    (va : Word) : walkSection p base sbzHi ap sbzLo domain imp c b va = .refused .sbzNonzero := by
  have hset : (sbzHi != 0#8 || sbzLo != 0#1) = true := by simpa using h
  rw [walkSection, sbzRefused_eq_true hp hset]
  rfl

theorem descriptorResult_of_table_of_sbzSet {table : TableKind} {d : Word} {p : Config.Params}
    (hp : p.sbzNonzero = .refuse) (h : kindBits d = table.code) (hset : table.sbzSet d = true) (mem : Memory)
    (va : Word) : descriptorResult p mem va (decodeDescriptor d) = .refused .sbzNonzero := by
  rw [descriptorResult_of_table h, sbzRefused_eq_true hp hset]
  rfl

/-- Settles O8: under refuse each of the three rows gives `WalkRefused` before it reads anything. -/
theorem sbzBitsRefusedByParameter : Obligations.SbzBitsRefusedByParameter := by
  intro d s hp hd
  have hresult : descriptorResult s.cfg s.mem s.walkVa (decodeDescriptor d) = .refused .sbzNonzero := by
    rcases hd with ⟨hkind, hsbz⟩ | ⟨hkind, hsbz⟩ | ⟨hkind, hsbz⟩
    · rw [decodeDescriptor_of_sectionBits hkind]
      exact walkSection_of_sbzSet hp hsbz _ _ _ _ _ _ _
    · exact descriptorResult_of_table_of_sbzSet (table := .coarse) hp hkind (bne_iff_ne.mpr hsbz) _ _
    · exact descriptorResult_of_table_of_sbzSet (table := .fine) hp hkind (bne_iff_ne.mpr hsbz) _ _
  rw [exec_descriptor, hresult]
  rfl

/-! ## The constraints of `P_L2_WALK` (R176) -/

/-- A page result meets the constraints, whatever the second-level descriptor says. -/
theorem pageResult_shape (kind : TableKind) (d : Word) (imp : BitVec 3) (va : Word) (x : L2Descriptor) :
    PageWalkShape kind d va (pageResult kind (d.extractLsb' 5 4) imp va x) := by
  cases x with
  | fault => exact ⟨rfl, rfl⟩
  | large => simp [pageResult, PageWalkShape, regionBase_eq_shift]
  | small => simp [pageResult, PageWalkShape, regionBase_eq_shift]
  | tiny => cases kind <;> simp [pageResult, PageWalkShape, regionBase_eq_shift]
  | refused => trivial

theorem secondLevelWalk_shape (p : Config.Params) (mem : Memory) (kind : TableKind) (d : Word) (imp : BitVec 3)
    (va : Word) : PageWalkShape kind d va (secondLevelWalk p mem kind d (d.extractLsb' 5 4) imp va) := by
  rcases secondLevelWalk_cases p mem kind d (d.extractLsb' 5 4) imp va with ⟨why, h⟩ | ⟨x, h⟩ <;> rw [h]
  · trivial
  · exact pageResult_shape kind d imp va x

/-- What a second-level descriptor says never lacks an instantiation. -/
theorem pageResult_ne_secondLevelOpen (kind : TableKind) (domain : BitVec 4) (imp : BitVec 3) (va : Word)
    (x : L2Descriptor) : pageResult kind domain imp va x ≠ .refused .secondLevelOpen := by
  cases x with
  | tiny => cases kind <;> simp [pageResult]
  | _ => simp [pageResult]

/-- The walk lacks an instantiation exactly when `P_L2_WALK` is not instantiated (R123). -/
theorem secondLevelWalk_eq_secondLevelOpen_iff (p : Config.Params) (mem : Memory) (kind : TableKind) (d : Word)
    (domain : BitVec 4) (imp : BitVec 3) (va : Word) :
    secondLevelWalk p mem kind d domain imp va = .refused .secondLevelOpen ↔ p.l2Walk = .uninstantiated := by
  unfold secondLevelWalk
  cases p.l2Walk with
  | uninstantiated => simp
  | uninterpreted => simp [pageResult_ne_secondLevelOpen]
  | candidate =>
    dsimp only
    split <;> simp [pageResult_ne_secondLevelOpen]

/-- Settles O9: such a descriptor is `P_L2_WALK`, every instantiation of which meets the constraints. -/
theorem pageDescriptorsRunSecondLevelWalk : Obligations.PageDescriptorsRunSecondLevelWalk := by
  intro table d s hkind hsbz
  have hresult := descriptorResult_of_table_of_sbz (p := s.cfg) hkind (hsbz.imp_left TableKind.sbzSet_eq_false) s.mem
    s.walkVa
  refine ⟨_, ?_, secondLevelWalk_shape s.cfg s.mem table d (d.extractLsb' 2 3) s.walkVa,
    secondLevelWalk_eq_secondLevelOpen_iff ..⟩
  rw [exec_descriptor, hresult]
  rfl

/-! ## The candidate `P_L2_WALK` (PRESUMED: G5, G6, log entries 15 and 20) -/

/-- The candidate fetches the word at its address, and what the word says is the result unless it is refused. -/
theorem secondLevelWalk_of_candidate {p : Config.Params} {mem : Memory} {kind : TableKind} {d va d2 : Word}
    (hp : p.l2Walk = .candidate) (hread : readWord p.endian mem (candidateL2Address kind d va) = d2)
    (domain : BitVec 4) (imp : BitVec 3) :
    secondLevelWalk p mem kind d domain imp va =
      if sbzRefused p (candidateL2SbzSet d2) then .refused .sbzNonzero
      else pageResult kind domain imp va (candidateL2Decode d2) := by
  rw [secondLevelWalk, hp, hread]

section CandidateWord

variable {d2 : Word}

theorem candidateL2SbzSet_of_faultBits (h : kindBits d2 = 0b00#2) : candidateL2SbzSet d2 = false := by
  simp [candidateL2SbzSet, h]

theorem candidateL2SbzSet_of_largeBits (h : kindBits d2 = 0b01#2) :
    candidateL2SbzSet d2 = (d2.extractLsb' 12 4 != 0#4) := by
  simp [candidateL2SbzSet, h]

theorem candidateL2SbzSet_of_smallBits (h : kindBits d2 = 0b10#2) : candidateL2SbzSet d2 = false := by
  simp [candidateL2SbzSet, h]

theorem candidateL2SbzSet_of_tinyBits (h : kindBits d2 = 0b11#2) :
    candidateL2SbzSet d2 = (d2.extractLsb' 6 4 != 0#4) := by
  simp [candidateL2SbzSet, h]

theorem candidateL2Decode_of_faultBits (h : kindBits d2 = 0b00#2) : candidateL2Decode d2 = .fault := by
  simp [candidateL2Decode, h]

theorem candidateL2Decode_of_largeBits (h : kindBits d2 = 0b01#2) :
    candidateL2Decode d2 =
      .large (d2.extractLsb' 16 16) (d2.extractLsb' 4 2) (d2.extractLsb' 6 2) (d2.extractLsb' 8 2)
        (d2.extractLsb' 10 2) (d2.extractLsb' 3 1) (d2.extractLsb' 2 1) := by
  simp [candidateL2Decode, h]

theorem candidateL2Decode_of_smallBits (h : kindBits d2 = 0b10#2) :
    candidateL2Decode d2 =
      .small (d2.extractLsb' 12 20) (d2.extractLsb' 4 2) (d2.extractLsb' 6 2) (d2.extractLsb' 8 2)
        (d2.extractLsb' 10 2) (d2.extractLsb' 3 1) (d2.extractLsb' 2 1) := by
  simp [candidateL2Decode, h]

theorem candidateL2Decode_of_tinyBits (h : kindBits d2 = 0b11#2) :
    candidateL2Decode d2 =
      .tiny (d2.extractLsb' 10 22) (d2.extractLsb' 4 2) (d2.extractLsb' 3 1) (d2.extractLsb' 2 1) := by
  simp [candidateL2Decode, h]

end CandidateWord

/-- Settles O10: the descriptor is the candidate's walk, whose word's kind bits give the should-be-zero bits and the
page. -/
theorem candidatePageEntries : Obligations.CandidatePageEntries := by
  intro table d d2 s hp hkind hsbz hread
  have hread' : readWord s.cfg.endian s.mem (candidateL2Address table d s.walkVa) = d2 := hread
  have hresult := descriptorResult_of_table_of_sbz (p := s.cfg) hkind (hsbz.imp_left TableKind.sbzSet_eq_false) s.mem
    s.walkVa
  rw [secondLevelWalk_of_candidate hp hread'] at hresult
  refine ⟨_, by rw [exec_descriptor, hresult]; rfl, fun h => ?_, fun h h2 => ?_, fun h h2 hr => ?_, fun h => ?_,
    fun h h2 => ?_, fun h h2 hr => ?_⟩
  · rw [sbzRefused_eq_false (.inl (candidateL2SbzSet_of_faultBits h)), candidateL2Decode_of_faultBits h]
    rfl
  · rw [candidateL2SbzSet_of_largeBits h, sbzRefused_eq_false (h2.imp_left fun hz => by simp [hz]),
      candidateL2Decode_of_largeBits h]
    rfl
  · rw [candidateL2SbzSet_of_largeBits h, sbzRefused_eq_true hr (bne_iff_ne.mpr h2)]
    rfl
  · rw [sbzRefused_eq_false (.inl (candidateL2SbzSet_of_smallBits h)), candidateL2Decode_of_smallBits h]
    rfl
  · rw [candidateL2SbzSet_of_tinyBits h, sbzRefused_eq_false (h2.imp_left fun hz => by simp [hz]),
      candidateL2Decode_of_tinyBits h]
    cases table <;> rfl
  · rw [candidateL2SbzSet_of_tinyBits h, sbzRefused_eq_true hr (bne_iff_ne.mpr h2)]
    rfl

/-! ## Descriptors run alone -/

/-- Settles O11: a descriptor row ends in `finishWalk`, which writes the walk hardware's fields only. -/
theorem descriptorFrame : Obligations.DescriptorFrame := by
  intro d s t h
  rw [exec_descriptor] at h
  obtain rfl := Host.Outcome.next.inj h
  exact ⟨rfl, fun _ => rfl⟩

/-- Settles O12: the walk is by definition what the fetched word's row gives. -/
theorem walkIsTheFetchedDescriptorRun : Obligations.WalkIsTheFetchedDescriptorRun := by
  intro s va
  rw [exec_descriptor]
  rfl

/-! ## What a walk reads (R163, R164) -/

/-- A fault or section descriptor gives its result without reading memory again (R166, R167). -/
theorem descriptorResult_of_firstLevel {d : Word} (h : kindBits d = 0b00#2 ∨ kindBits d = 0b10#2) (p : Config.Params)
    (mem mem' : Memory) (va : Word) :
    descriptorResult p mem va (decodeDescriptor d) = descriptorResult p mem' va (decodeDescriptor d) := by
  rcases h with h | h
  · rw [decodeDescriptor_of_faultBits h]; rfl
  · rw [decodeDescriptor_of_sectionBits h]; rfl

/-- Settles O13: the two machines fetch the same word, which is all a fault or section walk reads. -/
theorem firstLevelWalkReadsOneWord : Obligations.FirstLevelWalkReadsOneWord := by
  intro s s' va hcfg httbr hword hkind
  have hfetch : s'.l1Word va = s.l1Word va := by
    rw [State.l1Word, State.l1Word, hcfg, l1Address_congr httbr, readWord_of_fetchBytes hword]
  calc tableWalk s' va
      = descriptorResult s'.cfg s'.mem va (decodeDescriptor (s'.l1Word va)) := rfl
    _ = descriptorResult s.cfg s'.mem va (decodeDescriptor (s.l1Word va)) := by rw [hfetch, hcfg]
    _ = tableWalk s va := descriptorResult_of_firstLevel hkind s.cfg s'.mem s.mem va

/-- `P_L2_WALK` reads at most the word at its second-level address (R176). -/
theorem secondLevelWalk_congr {p : Config.Params} {mem mem' : Memory} {kind : TableKind} {d va : Word}
    (hopen : p.l2Walk = .uninterpreted → SameWordAt mem mem' (Config.l2Index kind d va ++ 0b00#2))
    (hcandidate : p.l2Walk = .candidate → SameWordAt mem mem' (candidateL2Address kind d va)) (domain : BitVec 4)
    (imp : BitVec 3) : secondLevelWalk p mem' kind d domain imp va = secondLevelWalk p mem kind d domain imp va := by
  unfold secondLevelWalk
  cases hp : p.l2Walk with
  | uninstantiated => rfl
  | uninterpreted => dsimp only; rw [readWord_of_fetchBytes (hopen hp)]
  | candidate => dsimp only; rw [readWord_of_fetchBytes (hcandidate hp)]

theorem candidateL2Address_wordAligned (kind : TableKind) (d va : Word) :
    (candidateL2Address kind d va).extractLsb' 0 2 = 0b00#2 := by
  cases kind <;> exact BitVec.extractLsb'_append_eq_right

/-- Settles O14: of memory, a page descriptor reads what `P_L2_WALK` on its word reads. -/
theorem pageWalkReadsOneMoreWord : Obligations.PageWalkReadsOneMoreWord := by
  intro table p d va hkind
  refine ⟨candidateL2Address_wordAligned table d va, fun mem mem' hopen hcandidate => ?_⟩
  rw [descriptorResult_of_table (table := table) hkind, descriptorResult_of_table (table := table) hkind,
    secondLevelWalk_congr hopen hcandidate]

end Sys2Proof.Machine

/-! # Proofs about accesses: disabled, hit and miss -/

namespace Sys2Proof.Machine

/-! ## Disabled (R112, R121) -/

theorem cOff_eq (p : Config.Params) (split : Bool) (kind : AccessKind) :
    cOff p split kind = if kind = .ifetch ∧ p.cacheWhenMmuOff = true ∧ split = true then 1#1 else 0#1 := by
  cases kind <;> simp [cOff]

/-- Settles O20: the flat access answers with the address itself and the C and B of R121. -/
theorem disabledAccessIsFlat : Obligations.DisabledAccessIsFlat := by
  intro kind va priv s hm
  rw [exec_accessInstr_of_disabled hm, ← cOff_eq]
  rfl

/-! ## Hits (R114, R124) -/

section Hit

variable {kind : AccessKind} {va : Word} {priv : Priv} {s : State}

theorem access_of_checks (hs : s.checks) : access kind va priv s = accessOn kind va priv s :=
  access_of_enabled (by simp [hs.1]) kind va priv

/-- The one matching slot is the one picked (R124). -/
theorem pick_singleton {α : Type} (n : Nat) (x : α) : pick n [x] = some x := rfl

/-- An enabled access on its one matching entry is the use of that entry (R118). -/
theorem access_of_single_entry {e : TlbEntry} (hs : s.checks) (hh : hits (s.slotsFor kind) va = [.entry e]) :
    access kind va priv s = .next (drawn (finishAccess kind va priv e s)) := by
  rw [access_of_checks hs]
  exact accessOn_of_pick_entry hs.2 (by rw [hh, pick_singleton])

theorem entryAnswer_of_allow {e : TlbEntry} (h : checkEntry s kind va priv e = .allow) :
    s.entryAnswer kind va priv e = .proceed (physicalAddress e va) e.c e.b := by
  rw [State.entryAnswer, h]

theorem entryAnswer_of_refuse {e : TlbEntry} {reason : PermReason} (h : checkEntry s kind va priv e = .refuse reason) :
    s.entryAnswer kind va priv e = .abort ⟨reason.toAbort, e.level, va, some e.domain⟩ := by
  rw [State.entryAnswer, h]

/-- Above the region's offset the physical address is the region's base (R120). -/
theorem physicalAddress_shift (e : TlbEntry) (va : Word) :
    physicalAddress e va >>> e.size.log2 = e.paBase >>> e.size.log2 := by
  apply BitVec.eq_of_getLsbD_eq
  intro i _
  rw [BitVec.getLsbD_ushiftRight, BitVec.getLsbD_ushiftRight]
  by_cases h : e.size.log2 + i < 32
  · simp [physicalAddress_getLsbD e va _ h]
  · rw [BitVec.getLsbD_of_ge _ _ (by omega), BitVec.getLsbD_of_ge _ _ (by omega)]

theorem RegionSize.log2_lt (size : RegionSize) : size.log2 < 32 := by
  cases size <;> decide

end Hit

/-- Settles O21: the access uses the entry, or aborts on the fault mark, of one of the matching slots. -/
theorem matchingSlotAnswers : Obligations.MatchingSlotAnswers := by
  intro kind va priv s hs hh
  rw [exec_accessInstr, access_of_checks hs]
  rcases accessOn_hit (priv := priv) hs.2 hh with ⟨e, he, h⟩ | ⟨base, hb, h⟩
  · refine ⟨.entry e, he, ?_⟩
    rw [h, finishAccess_eq]
    rfl
  · exact ⟨.faultMark base, hb, h⟩

/-- Settles O22: the use of the entry proceeds to its physical address, and records nothing. -/
theorem allowedHitProceeds : Obligations.AllowedHitProceeds := by
  intro kind va priv s e hs hh hallow
  refine ⟨physicalAddress e va, ?_, physicalAddress_shift e va, fun i hi => ?_⟩
  · rw [exec_accessInstr, access_of_single_entry hs hh, finishAccess_eq, entryAnswer_of_allow hallow]
    rfl
  · rw [physicalAddress_getLsbD e va i (hi.trans e.size.log2_lt), if_pos hi]

/-- Settles O23: the use of the entry answers the abort of the refused check, and records it. -/
theorem refusedHitAborts : Obligations.RefusedHitAborts := by
  intro kind va priv s e reason hs hh hrefuse
  rw [exec_accessInstr, access_of_single_entry hs hh, finishAccess_eq, entryAnswer_of_refuse hrefuse]
  rfl

/-! ## Misses (R115, R116) -/

section Miss

variable {kind : AccessKind} {va : Word} {priv : Priv} {s : State}

/-- A miss whose walk gives an entry fills with it, and then uses it (R116). -/
theorem access_of_miss_entry {e : TlbEntry} (hs : s.checks) (hh : hits (s.slotsFor kind) va = [])
    (hw : tableWalk s va = .entry e) :
    access kind va priv s = .next { s with
      tlbs := (fillTlb kind (.entry e) s).tlbs
      response := some (s.entryAnswer kind va priv e)
      abortStatus := s.statusAfter kind (s.entryAnswer kind va priv e)
      draws := s.draws + 1 } := by
  rw [access_of_miss hs hh, accessMiss_of_entry hw, finishAccess_eq]
  rfl

/-- A miss whose walk faults aborts, and at most keeps a fault mark (R116). -/
theorem access_of_miss_fault {level : Level} {domain : Option (BitVec 4)} (hs : s.checks)
    (hh : hits (s.slotsFor kind) va = []) (hw : tableWalk s va = .fault level domain) :
    access kind va priv s = .next { s with
      tlbs := (keepFault kind level va s).tlbs
      response := some (.abort ⟨.translation, level, va, domain⟩)
      abortStatus := recordAbort s ⟨.translation, level, va, domain⟩ kind
      draws := s.draws + 1 } := by
  rw [access_of_miss hs hh, accessMiss_of_fault hw, keepFault_eq]
  rfl

end Miss

/-- Settles O24: the fill is that of one unlocked slot of the TLB the access uses, and the check comes after it. -/
theorem missFillsBeforeTheCheck : Obligations.MissFillsBeforeTheCheck := by
  intro kind va priv s e hs hh hw
  rw [exec_accessInstr, access_of_miss_entry hs hh hw]
  obtain ⟨hfill, hother⟩ := fillTlb_slots kind (.entry e) s
  exact ⟨_, rfl, rfl, hfill, hother⟩

/-- A walk that fetches a section word with zero should-be-zero bits gives its entry (R167, R170). -/
theorem tableWalk_of_sectionBits {s : State} {va d : Word} (hd : s.l1Word va = d) (hkind : kindBits d = 0b10#2)
    (hHi : d.extractLsb' 12 8 = 0#8) (hLo : d.extractLsb' 9 1 = 0#1) :
    tableWalk s va = .entry (sectionEntry (d.extractLsb' 20 12) (d.extractLsb' 10 2) (d.extractLsb' 5 4)
      (d.extractLsb' 4 1) (d.extractLsb' 3 1) (d.extractLsb' 2 1) va) := by
  subst hd
  have hdecode := decodeDescriptor_of_sectionBits hkind
  exact (congrArg (descriptorResult s.cfg s.mem va) hdecode).trans (walkSection_of_sbz (.inl ⟨hHi, hLo⟩) ..)

/-- The physical address in a section joins the descriptor's base and the offset (R171). -/
theorem physicalAddress_sectionEntry (base : BitVec 12) (ap : BitVec 2) (domain : BitVec 4) (imp c b : BitVec 1)
    (va' va : Word) :
    physicalAddress (sectionEntry base ap domain imp c b va') va = base ++ va.extractLsb' 0 20 := by
  have hbase : (base ++ 0#20).extractLsb' 20 12 = base := BitVec.extractLsb'_append_eq_left
  exact congrArg (· ++ va.extractLsb' 0 20) hbase

/-- Settles O25: the walk gives the section's entry, and the check on it is the one assumed. -/
theorem sectionMissProceeds : Obligations.SectionMissProceeds := by
  intro kind va priv s d hs hh hd hkind hHi hLo hallow
  have hw := tableWalk_of_sectionBits hd hkind hHi hLo
  have hcheck : checkEntry s kind va priv (sectionEntry (d.extractLsb' 20 12) (d.extractLsb' 10 2) (d.extractLsb' 5 4)
      (d.extractLsb' 4 1) (d.extractLsb' 3 1) (d.extractLsb' 2 1) va) = .allow := hallow
  rw [exec_accessInstr, access_of_miss_entry hs hh hw, entryAnswer_of_allow hcheck, physicalAddress_sectionEntry]
  exact ⟨_, rfl, rfl, rfl⟩

/-- Settles O26: the miss aborts with the walk's fault, and `keepFault` leaves the TLBs or fills with the mark. -/
theorem faultingMissAborts : Obligations.FaultingMissAborts := by
  intro kind va priv s level domain hs hh hw
  rw [exec_accessInstr, access_of_miss_fault hs hh hw]
  refine ⟨_, rfl, rfl, ?_⟩
  rcases keepFault_cases kind level va s with hk | ⟨hl, hc, hk⟩ <;> rw [hk]
  · exact .inl rfl
  · obtain ⟨hfill, hother⟩ := fillTlb_slots kind (.faultMark (regionBase .sect va)) s
    exact .inr ⟨hl, hc, hfill, hother⟩

/-- An access that has a matching slot goes on (R114). -/
theorem access_ne_refused_of_hit {kind : AccessKind} {va : Word} {priv : Priv} {s : State} (hs : s.checks)
    (hh : hits (s.slotsFor kind) va ≠ []) (r : Refusal) : access kind va priv s ≠ .refused r := by
  rw [access_of_checks hs]
  rcases accessOn_hit (priv := priv) hs.2 hh with ⟨e, -, h⟩ | ⟨base, -, h⟩ <;> rw [h] <;> exact nofun

/-- A miss stops exactly with the refusal of its walk (R123). -/
theorem accessMiss_eq_refused_iff {kind : AccessKind} {va : Word} {priv : Priv} {s : State} {r : Refusal} :
    accessMiss kind va priv s = .refused r ↔ ∃ why, tableWalk s va = .refused why ∧ r = .walkRefused why := by
  cases hw : tableWalk s va with
  | fault level domain => simp [accessMiss_of_fault hw]
  | entry e => simp [accessMiss_of_entry hw]
  | refused why => simp [accessMiss_of_refused hw, eq_comm (a := r)]

/-- Settles O27: a disabled access and a hit go on, and a miss stops with its walk. -/
theorem accessStopsExactlyWhen : Obligations.AccessStopsExactlyWhen := by
  intro kind va priv s r
  by_cases hm : s.m = 0#1
  · simp [exec_accessInstr_of_disabled hm, hm]
  have hm1 := m_eq_one hm
  rw [exec_accessInstr]
  by_cases hp : s.cfg.perm = .uninstantiated
  · simp [access_of_enabled hm, accessOn_of_permUninstantiated hp, hm1, hp, eq_comm (a := r)]
  by_cases hh : hits (s.slotsFor kind) va = []
  · simp [access_of_miss ⟨hm1, hp⟩ hh, accessMiss_eq_refused_iff, hm1, hp, hh]
  · simp [access_ne_refused_of_hit ⟨hm1, hp⟩ hh, hp, hh]

end Sys2Proof.Machine

/-! # Proofs about accesses: what they answer, what they leave, and the TLB they do not use -/

namespace Sys2Proof.Machine

/-! ## Answers and aborts (R110, R190 to R192) -/

/-- A fault names no domain exactly when it is the section-level one (R192). -/
def WalkResult.domainUnlessFirstLevel : WalkResult → Prop
  | .fault level domain => domain = none ↔ level = .sect
  | .entry _ => True
  | .refused _ => True

theorem secondLevelWalk_domain (p : Config.Params) (mem : Memory) (kind : TableKind) (d : Word) (domain : BitVec 4)
    (imp : BitVec 3) (va : Word) : (secondLevelWalk p mem kind d domain imp va).domainUnlessFirstLevel := by
  rcases secondLevelWalk_cases p mem kind d domain imp va with ⟨why, h⟩ | ⟨x, h⟩ <;> rw [h]
  · trivial
  cases x with
  | fault => simp [pageResult, WalkResult.domainUnlessFirstLevel]
  | tiny => cases kind <;> trivial
  | _ => trivial

theorem descriptorResult_domain (p : Config.Params) (mem : Memory) (va : Word) (d : Descriptor) :
    (descriptorResult p mem va d).domainUnlessFirstLevel := by
  cases d with
  | fault => simp [descriptorResult, walkFault, WalkResult.domainUnlessFirstLevel]
  | sect =>
    rw [descriptorResult, walkSection]
    split <;> trivial
  | coarse =>
    rw [descriptorResult, walkCoarse]
    split
    · trivial
    · exact secondLevelWalk_domain ..
  | fine =>
    rw [descriptorResult, walkFine]
    split
    · trivial
    · exact secondLevelWalk_domain ..

theorem domain_of_tableWalk_fault {s : State} {va : Word} {level : Level} {domain : Option (BitVec 4)}
    (hw : tableWalk s va = .fault level domain) : domain = none ↔ level = .sect := by
  have hdomain : (tableWalk s va).domainUnlessFirstLevel := descriptorResult_domain ..
  rwa [hw] at hdomain

theorem PermReason.toAbort_ne_translation (reason : PermReason) : reason.toAbort ≠ .translation := by
  cases reason <;> exact nofun

/-- An answer an access can give: `Proceed`, or, enabled, an abort of its address that names no domain exactly when it
is the section-level translation fault (R110, R192). -/
def State.MayAnswer (s : State) (va : Word) (r : Response) : Prop :=
  (∃ pa c b, r = .proceed pa c b) ∨
    (s.m = 1#1 ∧ ∃ a : Abort, r = .abort a ∧ a.va = va ∧
      (a.domain = none ↔ a.reason = .translation ∧ a.level = .sect))

theorem mayAnswer_entryAnswer {s : State} (hm : s.m = 1#1) (kind : AccessKind) (va : Word) (priv : Priv) (e : TlbEntry) :
    s.MayAnswer va (s.entryAnswer kind va priv e) := by
  cases h : checkEntry s kind va priv e with
  | allow => exact .inl ⟨_, _, _, entryAnswer_of_allow h⟩
  | refuse reason =>
    exact .inr ⟨hm, _, entryAnswer_of_refuse h, rfl, by simp [reason.toAbort_ne_translation]⟩

/-- Every access that goes on gives such an answer, and records it when it is an abort (R195). -/
theorem access_answer {kind : AccessKind} {va : Word} {priv : Priv} {s t : State} (h : access kind va priv s = .next t) :
    ∃ r, t.response = some r ∧ t.abortStatus = s.statusAfter kind r ∧ s.MayAnswer va r := by
  obtain ⟨-, rfl⟩ | ⟨⟨hm, -⟩, ⟨e, -, rfl⟩ | ⟨base, -, rfl⟩ | ⟨-, ⟨e, -, rfl⟩ | ⟨level, domain, hw, rfl⟩⟩⟩ := access_cases h
  · exact ⟨_, rfl, rfl, .inl ⟨_, _, _, rfl⟩⟩
  · rw [finishAccess_eq]
    exact ⟨_, rfl, rfl, mayAnswer_entryAnswer hm kind va priv e⟩
  · exact ⟨_, rfl, rfl, .inr ⟨hm, _, rfl, rfl, by simp⟩⟩
  · rw [finishAccess_eq]
    exact ⟨_, rfl, rfl, mayAnswer_entryAnswer (s := fillTlb kind (.entry e) s) hm kind va priv e⟩
  · rw [keepFault_eq]
    exact ⟨_, rfl, rfl, .inr ⟨hm, _, rfl, rfl, by simp [domain_of_tableWalk_fault hw]⟩⟩

/-- Settles O28: the two cases of `access_answer`. -/
theorem accessAnswersProceedOrAbort : Obligations.AccessAnswersProceedOrAbort := by
  intro kind va priv s t h
  rw [exec_accessInstr] at h
  obtain ⟨_, hr, hstatus, ⟨pa, c, b, rfl⟩ | ⟨hm, a, rfl, hva, hdomain⟩⟩ := access_answer h
  · exact .inl ⟨pa, c, b, hr, hstatus⟩
  · exact .inr ⟨hm, a, hr, hva, hstatus, hdomain⟩

/-! ## The frame (R111 to R116) -/

/-- An access leaves every TLB but the one it uses (R113). -/
theorem access_otherTlbs {kind : AccessKind} {va : Word} {priv : Priv} {s t : State} (h : access kind va priv s = .next t)
    {n : TlbName} (hn : n ≠ s.tlbs.nameFor kind) : t.tlbs.slots n = s.tlbs.slots n := by
  obtain ht | ⟨-, -, x, ht, -⟩ := access_tlbs_cases h <;> rw [ht]
  exact (fillTlb_slots kind x s).2 n hn

/-- A hit fills nothing (R114). -/
theorem access_tlbs_of_hit {kind : AccessKind} {va : Word} {priv : Priv} {s t : State} (h : access kind va priv s = .next t)
    (hh : hits (s.slotsFor kind) va ≠ []) : t.tlbs = s.tlbs := by
  obtain ht | ⟨-, hmiss, -⟩ := access_tlbs_cases h
  · exact ht
  · exact absurd hmiss hh

/-- Settles O29, from the frame of an access, the fill of one TLB at most, and the flat access. -/
theorem accessFrame : Obligations.AccessFrame := by
  intro kind va priv s t hexec
  have h := (exec_accessInstr kind va priv s).symm.trans hexec
  refine ⟨access_frame h, fun a => ?_, fun n => access_otherTlbs h, access_tlbs_of_hit h, fun hm => ?_⟩
  · rw [access_frame h]
  · obtain rfl := Host.Outcome.next.inj ((exec_accessInstr_of_disabled hm kind va priv).symm.trans hexec)
    rfl

/-- Settles O30: the machine with other tables is `State.withTables`. -/
theorem hitReadsNoTable : Obligations.HitReadsNoTable := by
  intro kind va priv s t mem ttbr _ hh h
  rw [exec_accessInstr] at h ⊢
  exact access_withTables_of_hit hh h mem ttbr

/-! ## The TLB an access does not use (R113) -/

/-- With split TLBs, the one that accesses of this kind do not use holds `other`; a unified system has none. -/
def Tlbs.withOther (kind : AccessKind) (other : List Slot) : Tlbs → Tlbs
  | .unified u => .unified u
  | .split i d =>
    match kind with
    | .ifetch => .split i other
    | .read => .split other d
    | .write => .split other d

@[simp] theorem Tlbs.isSplit_withOther (kind : AccessKind) (other : List Slot) (u : Tlbs) :
    (u.withOther kind other).isSplit = u.isSplit := by
  cases u <;> cases kind <;> rfl

@[simp] theorem Tlbs.nameFor_withOther (kind : AccessKind) (other : List Slot) (u : Tlbs) :
    (u.withOther kind other).nameFor kind = u.nameFor kind := by
  cases u <;> cases kind <;> rfl

@[simp] theorem Tlbs.slots_withOther (kind : AccessKind) (other : List Slot) (u : Tlbs) :
    (u.withOther kind other).slots (u.nameFor kind) = u.slots (u.nameFor kind) := by
  cases u <;> cases kind <;> rfl

theorem Tlbs.withSlots_withOther (kind : AccessKind) (other : List Slot) (u : Tlbs) (x : List Slot) :
    (u.withOther kind other).withSlots (u.nameFor kind) x = (u.withSlots (u.nameFor kind) x).withOther kind other := by
  cases u <;> cases kind <;> rfl

/-- The machine with `other` in the TLB that accesses of this kind do not use. -/
def State.withOtherTlb (s : State) (kind : AccessKind) (other : List Slot) : State :=
  { s with tlbs := s.tlbs.withOther kind other }

section OtherTlb

variable {kind : AccessKind} {va : Word} {priv : Priv} {s t : State} {other : List Slot}

@[simp] theorem State.slotsFor_withOtherTlb : (s.withOtherTlb kind other).slotsFor kind = s.slotsFor kind := by
  simp [State.slotsFor, State.withOtherTlb]

theorem accessOff_withOtherTlb :
    accessOff kind va (s.withOtherTlb kind other) = (accessOff kind va s).withOtherTlb kind other := by
  simp [accessOff, State.withOtherTlb, answer]

theorem finishAccess_withOtherTlb (e : TlbEntry) :
    finishAccess kind va priv e (s.withOtherTlb kind other) =
      (finishAccess kind va priv e s).withOtherTlb kind other := by
  rw [finishAccess_eq, finishAccess_eq]
  rfl

theorem fillTlb_withOtherTlb (x : Slot) :
    fillTlb kind x (s.withOtherTlb kind other) = (fillTlb kind x s).withOtherTlb kind other := by
  simp [fillTlb, State.withOtherTlb, Tlbs.withSlots_withOther]

theorem keepFault_withOtherTlb (level : Level) :
    keepFault kind level va (s.withOtherTlb kind other) = (keepFault kind level va s).withOtherTlb kind other := by
  unfold keepFault
  cases level with
  | page => rfl
  | sect =>
    rw [fillTlb_withOtherTlb]
    exact (apply_ite (State.withOtherTlb · kind other) _ _ _).symm

/-- A miss does the same whatever the other TLB holds. -/
theorem accessMiss_withOtherTlb (h : accessMiss kind va priv s = .next t) :
    accessMiss kind va priv (s.withOtherTlb kind other) = .next (t.withOtherTlb kind other) := by
  obtain ⟨e, hw, rfl⟩ | ⟨level, domain, hw, rfl⟩ := accessMiss_cases h
  · rw [accessMiss_of_entry (s := s.withOtherTlb kind other) hw, fillTlb_withOtherTlb, finishAccess_withOtherTlb]
    rfl
  · rw [accessMiss_of_fault (s := s.withOtherTlb kind other) hw, keepFault_withOtherTlb]
    rfl

/-- An enabled access does the same whatever the other TLB holds: it picks among the slots of its own. -/
theorem accessOn_withOtherTlb (h : accessOn kind va priv s = .next t) :
    accessOn kind va priv (s.withOtherTlb kind other) = .next (t.withOtherTlb kind other) := by
  by_cases hp : s.cfg.perm = .uninstantiated
  · rw [accessOn_of_permUninstantiated hp] at h
    cases h
  have hp' : (s.withOtherTlb kind other).cfg.perm ≠ .uninstantiated := hp
  have hslots : (s.withOtherTlb kind other).slotsFor kind = s.slotsFor kind := State.slotsFor_withOtherTlb
  cases hx : pick (Config.hitChoice s.draws) (hits (s.slotsFor kind) va) with
  | none =>
    have hmiss := pick_eq_none.mp hx
    rw [accessOn_miss hp hmiss] at h
    rw [accessOn_miss hp' (hslots ▸ hmiss)]
    exact accessMiss_withOtherTlb h
  | some x =>
    cases x with
    | unused => cases (mem_hits.mp (pick_mem hx)).2
    | entry e =>
      obtain rfl := Host.Outcome.next.inj ((accessOn_of_pick_entry hp hx).symm.trans h)
      rw [accessOn_of_pick_entry hp' (hslots ▸ hx), finishAccess_withOtherTlb]
      rfl
    | faultMark base =>
      obtain rfl := Host.Outcome.next.inj ((accessOn_of_pick_faultMark hp hx).symm.trans h)
      exact accessOn_of_pick_faultMark hp' (hslots ▸ hx)

theorem access_withOtherTlb (h : access kind va priv s = .next t) :
    access kind va priv (s.withOtherTlb kind other) = .next (t.withOtherTlb kind other) := by
  by_cases hm : s.m = 0#1
  · obtain rfl := Host.Outcome.next.inj ((if_pos hm).symm.trans h)
    rw [← accessOff_withOtherTlb]
    exact if_pos hm
  · have hm' : ¬ (s.withOtherTlb kind other).m = 0#1 := hm
    rw [access_of_enabled hm] at h
    rw [access_of_enabled hm']
    exact accessOn_withOtherTlb h

/-- After an access, the TLBs are the old ones but for the slots of the TLB it uses. -/
theorem access_tlbs_eq_withSlots (h : access kind va priv s = .next t) :
    ∃ x, t.tlbs = s.tlbs.withSlots (s.tlbs.nameFor kind) x := by
  obtain ht | ⟨-, -, x, ht, -⟩ := access_tlbs_cases h
  · refine ⟨s.slotsFor kind, ht.trans ?_⟩
    unfold State.slotsFor
    cases s.tlbs <;> cases kind <;> rfl
  · exact ⟨_, ht⟩

end OtherTlb

/-- Settles O31: an access uses the TLB of its kind, and does the same whatever the other one holds. -/
theorem splitTlbsAreIndependent : Obligations.SplitTlbsAreIndependent := by
  intro kind va priv s t i d other hs h
  rw [exec_accessInstr] at h
  obtain ⟨x, ht⟩ := access_tlbs_eq_withSlots h
  have hother := access_withOtherTlb (other := other) h
  rw [State.withOtherTlb, State.withOtherTlb, ht, hs] at hother
  rw [hs] at ht
  refine ⟨fun hkind => ⟨x, ?_, ?_⟩, fun hkind => ⟨x, ?_, ?_⟩⟩
  · rw [ht, hkind]; rfl
  · subst hkind; exact hother
  · cases kind with
    | ifetch => exact absurd rfl hkind
    | read => exact ht
    | write => exact ht
  · cases kind with
    | ifetch => exact absurd rfl hkind
    | read => exact hother
    | write => exact hother

end Sys2Proof.Machine

/-! # Proofs about control operations: the enable bit, the lock, and the abort status -/

namespace Sys2Proof.Machine

/-! ## `CP15.WRITE_M` (R140, R141) -/

theorem exec_cp15WriteM (b : BitVec 1) (s : State) :
    exec (.cp15WriteM b) s = .next { s with m := b, response := some .done } := rfl

/-- Settles O32: the access after the write is the flat one for 0, and the one `faultDescriptorAborts` speaks of for 1. -/
theorem writeMSetsTheEnableBit : Obligations.WriteMSetsTheEnableBit := by
  intro b s
  refine ⟨exec_cp15WriteM b s, ?_, ?_⟩
  · rintro rfl kind va priv
    exact ⟨_, _, exec_accessInstr_of_disabled (s := { s with m := 0#1, response := some .done }) rfl kind va priv⟩
  · rintro rfl hp kind va priv hmiss hword
    obtain ⟨t, ht, hr, -⟩ :=
      faultDescriptorAborts.2 kind va priv { s with m := 1#1, response := some .done } ⟨rfl, hp⟩ hmiss hword
    exact ⟨t, ht, hr⟩

/-! ## `TLB.LOCK` (R146, D23) -/

/-- What `TLB.LOCK` needs (R146): lockdown, an enabled MMU, and a TLB of the system. -/
def State.MayLock (s : State) (n : TlbName) : Prop :=
  s.cfg.tlbLockdown = true ∧ s.m = 1#1 ∧ s.tlbs.has n = true

section Lock

variable {n : TlbName} {va : Word} {s : State}

/-- Outside its precondition it is refused. -/
theorem execTlbLock_refused_of_not_mayLock (h : ¬ s.MayLock n) : ∃ r, execTlbLock n va s = .refused r := by
  unfold execTlbLock
  by_cases hl : s.cfg.tlbLockdown = false
  · exact ⟨_, if_pos hl⟩
  rw [if_neg hl]
  by_cases hm : s.m = 0#1
  · exact ⟨_, if_pos hm⟩
  rw [if_neg hm]
  by_cases hn : s.tlbs.has n = false
  · exact ⟨_, if_pos hn⟩
  exact absurd ⟨by simpa using hl, m_eq_one hm, by simpa using hn⟩ h

theorem execTlbLock_of_fault (h : s.MayLock n) {level : Level} {domain : Option (BitVec 4)}
    (hw : tableWalk s va = .fault level domain) : execTlbLock n va s = .next (answer .done s) := by
  obtain ⟨hl, hm, hn⟩ := h
  simp [execTlbLock, hl, hm, hn, hw]

theorem execTlbLock_of_refused (h : s.MayLock n) {why : WalkRefusal} (hw : tableWalk s va = .refused why) :
    execTlbLock n va s = .refused (.walkRefused why) := by
  obtain ⟨hl, hm, hn⟩ := h
  simp [execTlbLock, hl, hm, hn, hw]

theorem execTlbLock_of_entry (h : s.MayLock n) {e : TlbEntry} (hw : tableWalk s va = .entry e) :
    execTlbLock n va s = lockInto n e s := by
  obtain ⟨hl, hm, hn⟩ := h
  simp [execTlbLock, hl, hm, hn, hw]

/-- With every slot locked there is none to lock the entry in. -/
theorem lockInto_of_allLocked (e : TlbEntry) (h : ∀ x ∈ s.tlbs.slots n, x.isLocked = true) :
    lockInto n e s = .refused .noSlotToLock := by
  rw [lockInto, replaceable_eq_nil.mpr h]
  rfl

/-- With a slot not locked, the entry stands locked in one such slot. -/
theorem lockInto_of_free (e : TlbEntry) (h : ∃ x ∈ s.tlbs.slots n, x.isLocked = false) :
    ∃ j, j < (s.tlbs.slots n).length ∧ ((s.tlbs.slots n).getD j .unused).isLocked = false ∧
      lockInto n e s = .next { s with
        tlbs := s.tlbs.withSlots n ((s.tlbs.slots n).set j (.entry { e with locked := true }))
        response := some .done
        draws := s.draws + 1 } := by
  cases hj : pick (Config.victim s.draws) (replaceable (s.tlbs.slots n)) with
  | none =>
    obtain ⟨x, hx, hfree⟩ := h
    have hlocked := replaceable_eq_nil.mp (pick_eq_none.mp hj) x hx
    rw [hfree] at hlocked
    cases hlocked
  | some j =>
    obtain ⟨hlt, hfree⟩ := mem_replaceable.mp (pick_mem hj)
    refine ⟨j, hlt, hfree, ?_⟩
    rw [lockInto, hj]
    rfl

end Lock

/-- Settles O35: inside the precondition the walk's result decides, and an entry goes into a slot that is not locked. -/
theorem lockPlacesTheEntryLocked : Obligations.LockPlacesTheEntryLocked := by
  intro n va s hl hm hn
  have hlock : s.MayLock n := ⟨hl, hm, hn⟩
  refine ⟨fun e hw hfree => ?_, fun level domain hw => execTlbLock_of_fault hlock hw⟩
  obtain ⟨j, hj, hjfree, hinto⟩ := lockInto_of_free e hfree
  exact ⟨j, hj, hjfree, (execTlbLock_of_entry hlock hw).trans hinto⟩

/-- Settles O36: outside the precondition the lock stops; inside it the walk's result decides, and for an entry whether
a slot is not locked. -/
theorem lockStopsExactlyWhen : Obligations.LockStopsExactlyWhen := by
  intro n va s
  constructor
  · rintro ⟨r, h⟩
    by_contra hgoes
    simp only [not_or] at hgoes
    obtain ⟨hl, hm, hn, hrefused, hentry⟩ := hgoes
    have hlock : s.MayLock n := ⟨by simpa using hl, m_eq_one hm, by simpa using hn⟩
    cases hw : tableWalk s va with
    | fault level domain => cases (execTlbLock_of_fault hlock hw).symm.trans h
    | refused why => exact hrefused ⟨why, hw⟩
    | entry e =>
      have hfree : ∃ x ∈ s.tlbs.slots n, x.isLocked = false := by
        by_contra hall
        exact hentry ⟨⟨e, hw⟩, fun x hx => by simpa using fun hx' => hall ⟨x, hx, hx'⟩⟩
      obtain ⟨j, -, -, hinto⟩ := lockInto_of_free e hfree
      cases ((execTlbLock_of_entry hlock hw).trans hinto).symm.trans h
  · intro h
    by_cases hlock : s.MayLock n
    · obtain ⟨hl, hm, hn⟩ := id hlock
      rcases h with h | h | h | ⟨why, hw⟩ | ⟨⟨e, hw⟩, hall⟩
      · simp [hl] at h
      · simp [hm] at h
      · simp [hn] at h
      · exact ⟨_, execTlbLock_of_refused hlock hw⟩
      · exact ⟨_, (execTlbLock_of_entry hlock hw).trans (lockInto_of_allLocked e hall)⟩
    · exact execTlbLock_refused_of_not_mayLock hlock

/-! ## `CP15.READ_ABORT_STATUS` (R147, D8) -/

theorem exec_cp15ReadAbortStatus (s : State) :
    exec .cp15ReadAbortStatus s = .next { s with response := some (.abortStatus s.abortStatus) } := rfl

/-- An access that answers an abort has recorded it (R195). -/
theorem access_abort_recorded {kind : AccessKind} {va : Word} {priv : Priv} {s t : State} {a : Abort}
    (h : access kind va priv s = .next t) (hr : t.response = some (.abort a)) : t.abortStatus = recordAbort s a kind := by
  obtain ⟨r, hr', hstatus, -⟩ := access_answer h
  obtain rfl := Option.some.inj (hr'.symm.trans hr)
  exact hstatus

/-- Settles O37: it answers the register, which holds what the aborted access recorded. -/
theorem readAbortStatusAnswersTheRecord : Obligations.ReadAbortStatusAnswersTheRecord := by
  refine fun s => ⟨exec_cp15ReadAbortStatus s, fun kind va priv t a h hr => ?_⟩
  rw [exec_accessInstr] at h
  rw [exec_cp15ReadAbortStatus, access_abort_recorded h hr]

/-! ## The frame of the control operations -/

/-- `TLB.LOCK` leaves every TLB but the named one. -/
theorem execTlbLock_otherTlbs {n n' : TlbName} {va : Word} {s t : State} (h : execTlbLock n va s = .next t)
    (hn : n' ≠ n) : t.tlbs.slots n' = s.tlbs.slots n' := by
  obtain ⟨-, -, -, ⟨_, _, -, rfl⟩ | ⟨_, _, -, -, -, rfl⟩⟩ := execTlbLock_cases h
  · rfl
  · exact Tlbs.slots_withSlots_other hn _

/-- Settles O38: the next state of each operation is written out in its meaning, and `TLB.LOCK` has its frame. -/
theorem controlFrame : Obligations.ControlFrame := by
  refine fun s t => ⟨fun b h => ?_, fun v h => ?_, fun h => ?_, fun n va h => ?_, fun h => ?_, fun r h a => ?_⟩
  · obtain rfl := Host.Outcome.next.inj h; rfl
  · obtain rfl := Host.Outcome.next.inj h; rfl
  · obtain rfl := Host.Outcome.next.inj h; rfl
  · exact ⟨execTlbLock_frame h, fun n' hn => execTlbLock_otherTlbs h hn⟩
  · obtain rfl := Host.Outcome.next.inj h; rfl
  · rw [exec_request_frame h]

end Sys2Proof.Machine

/-! # Proofs about steps: fetched and placed words, stores, and rules of the whole machine -/

namespace Sys2Proof.Machine

/-! ## Main memory: a word stored (R32, R54, R55) -/

/-- The word's four bytes are stored one after the other. -/
theorem storeBytes_four (mem : Memory) (a : Word) (b0 b1 b2 b3 : Byte) :
    storeBytes mem a [b0, b1, b2, b3] =
      storeByte (storeByte (storeByte (storeByte mem a b0) (a + 1) b1) (a + 2) b2) (a + 3) b3 := by
  have h2 : a + 1 + 1 = a + 2 := by rw [BitVec.add_assoc]; rfl
  have h3 : a + 2 + 1 = a + 3 := by rw [BitVec.add_assoc]; rfl
  simp only [storeBytes, h2, h3]

/-- Four bytes stored are the four bytes fetched: their addresses differ, also where they wrap at 2^32 (log entry 23). -/
theorem fetchBytes_storeBytes_four (mem : Memory) (a : Word) (b0 b1 b2 b3 : Byte) :
    fetchBytes (storeBytes mem a [b0, b1, b2, b3]) a = [b0, b1, b2, b3] := by
  rw [storeBytes_four]
  simp [fetchBytes, byteAt_storeByte_same, byteAt_storeByte_other]

theorem fetchBytes_writeWord (e : Config.Endian) (mem : Memory) (a w : Word) :
    fetchBytes (writeWord e mem a w) a = bytesOfWord e w := by
  cases e <;> exact fetchBytes_storeBytes_four ..

theorem readWord_writeWord (e : Config.Endian) (mem : Memory) (a w : Word) : readWord e (writeWord e mem a w) a = w :=
  readWord_eq_of_fetchBytes (fetchBytes_writeWord e mem a w)

/-- No byte but the four of the word changes. -/
theorem byteAt_writeWord_other (e : Config.Endian) (mem : Memory) {a c : Word} (w : Word) (h0 : c ≠ a) (h1 : c ≠ a + 1)
    (h2 : c ≠ a + 2) (h3 : c ≠ a + 3) : byteAt (writeWord e mem a w) c = byteAt mem c := by
  obtain ⟨b0, b1, b2, b3, hb, -⟩ := wordOfBytes_bytesOfWord e w
  rw [writeWord, hb, storeBytes_four, byteAt_storeByte_other _ _ _ _ h3, byteAt_storeByte_other _ _ _ _ h2,
    byteAt_storeByte_other _ _ _ _ h1, byteAt_storeByte_other _ _ _ _ h0]

/-- Settles O19: the four bytes stored are fetched again, the first of them at the address itself. -/
theorem storedWordReadsBack : Obligations.StoredWordReadsBack := by
  intro e mem a w
  refine ⟨readWord_writeWord e mem a w, ?_, ?_, fun c => byteAt_writeWord_other e mem w⟩
  · exact List.head_eq_of_cons_eq (fetchBytes_writeWord .little mem a w)
  · exact List.head_eq_of_cons_eq (fetchBytes_writeWord .big mem a w)

/-! ## What a step runs (R62) -/

/-- Settles O15: the bytes fetched make the word, which decodes to the instruction it encodes. -/
theorem stepRunsTheFetchedDescriptor : Obligations.StepRunsTheFetchedDescriptor := by
  intro s i w hactive hencode hbytes
  rw [step_walk hactive, readWord_eq_of_fetchBytes hbytes, toInstr_decodeDescriptor_of_encode hencode]

section Inputs

variable {s : State} {rest : List Input}

theorem step_request (hw : s.walkActive = false) {r : Request} (hi : s.inputs = .request r :: rest) :
    step s = exec (requestInstr r) { s with inputs := rest } := by
  simp [step, hw, hi]

theorem step_storeWord (hw : s.walkActive = false) {pa w : Word} (hi : s.inputs = .storeWord pa w :: rest) :
    step s = .next { s with inputs := rest, mem := writeWord s.cfg.endian s.mem pa w } := by
  simp [step, hw, hi]

theorem step_storeByte (hw : s.walkActive = false) {pa : Word} {b : Byte} (hi : s.inputs = .storeByte pa b :: rest) :
    step s = .next { s with inputs := rest, mem := storeByte s.mem pa b } := by
  simp [step, hw, hi]

theorem step_setDomainControl (hw : s.walkActive = false) {v : Word} (hi : s.inputs = .setDomainControl v :: rest) :
    step s = .next { s with inputs := rest, domainControl := v } := by
  simp [step, hw, hi]

theorem step_setOtherControl (hw : s.walkActive = false) {v : Word} (hi : s.inputs = .setOtherControl v :: rest) :
    step s = .next { s with inputs := rest, otherControl := v } := by
  simp [step, hw, hi]

theorem step_idle (hw : s.walkActive = false) (hi : s.inputs = []) : step s = .next s := by
  simp [step, hw, hi]

end Inputs

/-- Settles O16: one equation of `step` for each form of input. -/
theorem stepTakesTheOldestInput : Obligations.StepTakesTheOldestInput := by
  intro s rest hw
  refine ⟨fun r hi => step_request hw hi, fun pa w hi => ?_, fun pa b hi => ?_, fun v hi => step_setDomainControl hw hi,
    fun v hi => step_setOtherControl hw hi, step_idle hw⟩
  · exact ⟨_, step_storeWord hw hi, rfl, readWord_writeWord .., fun a => byteAt_writeWord_other _ _ _⟩
  · exact ⟨_, step_storeByte hw hi, rfl, byteAt_storeByte_same .., fun a => byteAt_storeByte_other _ _ _ _⟩

/-- The address fetched for a placed word is that of the word (log entry 2). -/
theorem l1Address_zero : l1Address 0#32 0#32 = 0#32 := by decide

/-- Settles O17: the word placed is the one at the fetch address. -/
theorem placedWordRunsNext : Obligations.PlacedWordRunsNext := by
  intro s w
  have hplaced : (s.withFetchWord 32 w.toNat).l1Word 0#32 = w := by
    have hw : BitVec.ofNat 32 (w.toNat % 2 ^ 32) = w := by
      rw [Nat.mod_eq_of_lt w.isLt, BitVec.ofNat_toNat, BitVec.setWidth_eq]
    simp only [State.l1Word, State.withFetchWord, l1Address_zero, hw, readWord_writeWord]
  have hstep := step_walk (s := s.withFetchWord 32 w.toNat) rfl
  rw [hstep]
  exact congrArg (fun d => exec (decodeDescriptor d).toInstr (s.withFetchWord 32 w.toNat)) hplaced

/-! ## No fault (R86, R190) -/

theorem accessMiss_ne_fault (kind : AccessKind) (va : Word) (priv : Priv) (s : State) (f : Fault) :
    accessMiss kind va priv s ≠ .fault f := by
  cases hw : tableWalk s va with
  | fault level domain => rw [accessMiss_of_fault hw]; exact nofun
  | entry e => rw [accessMiss_of_entry hw]; exact nofun
  | refused why => rw [accessMiss_of_refused hw]; exact nofun

theorem access_ne_fault (kind : AccessKind) (va : Word) (priv : Priv) (s : State) (f : Fault) :
    access kind va priv s ≠ .fault f := by
  by_cases hm : s.m = 0#1
  · rw [access, if_pos hm]; exact nofun
  rw [access_of_enabled hm]
  by_cases hp : s.cfg.perm = .uninstantiated
  · rw [accessOn_of_permUninstantiated hp]; exact nofun
  by_cases hh : hits (s.slotsFor kind) va = []
  · rw [accessOn_miss hp hh]; exact accessMiss_ne_fault kind va priv s f
  · rcases accessOn_hit (priv := priv) hp hh with ⟨e, -, h⟩ | ⟨base, -, h⟩ <;> rw [h] <;> exact nofun

theorem lockInto_ne_fault (n : TlbName) (e : TlbEntry) (s : State) (f : Fault) : lockInto n e s ≠ .fault f := by
  unfold lockInto
  split <;> exact nofun

theorem execTlbLock_ne_fault (n : TlbName) (va : Word) (s : State) (f : Fault) : execTlbLock n va s ≠ .fault f := by
  by_cases hlock : s.MayLock n
  · cases hw : tableWalk s va with
    | fault level domain => rw [execTlbLock_of_fault hlock hw]; exact nofun
    | refused why => rw [execTlbLock_of_refused hlock hw]; exact nofun
    | entry e => rw [execTlbLock_of_entry hlock hw]; exact lockInto_ne_fault n e s f
  · obtain ⟨r, h⟩ := execTlbLock_refused_of_not_mayLock (va := va) hlock
    rw [h]
    exact nofun

theorem exec_request_ne_fault (r : Request) (s : State) (f : Fault) : exec (requestInstr r) s ≠ .fault f := by
  cases r with
  | access kind va priv => exact exec_accessInstr kind va priv s ▸ access_ne_fault kind va priv s f
  | lock n va => exact execTlbLock_ne_fault n va s f
  | _ => exact nofun

/-- Settles O18: a fetched word is a descriptor, whose row goes on; a request answers or is refused. -/
theorem noStepFaults : Obligations.NoStepFaults := by
  intro s f
  cases hw : s.walkActive with
  | true => rw [step_walk hw, exec_descriptor]; exact nofun
  | false =>
    match hi : s.inputs with
    | [] => rw [step_idle hw hi]; exact nofun
    | .request r :: rest => rw [step_request hw hi]; exact exec_request_ne_fault r _ f
    | .storeWord pa w :: rest => rw [step_storeWord hw hi]; exact nofun
    | .storeByte pa b :: rest => rw [step_storeByte hw hi]; exact nofun
    | .setDomainControl v :: rest => rw [step_setDomainControl hw hi]; exact nofun
    | .setOtherControl v :: rest => rw [step_setOtherControl hw hi]; exact nofun

/-! ## Who may write what -/

/-- `AbortStatus` changes only by an access that aborts (R195). -/
theorem access_abortStatus_ne {kind : AccessKind} {va : Word} {priv : Priv} {s t : State}
    (h : access kind va priv s = .next t) (hne : t.abortStatus ≠ s.abortStatus) : ∃ a, t.response = some (.abort a) := by
  obtain ⟨r, hr, hstatus, ⟨pa, c, b, rfl⟩ | ⟨-, a, rfl, -⟩⟩ := access_answer h
  · exact absurd hstatus hne
  · exact ⟨a, hr⟩

/-- The TLBs change only by an enabled access (R112). -/
theorem access_tlbs_ne {kind : AccessKind} {va : Word} {priv : Priv} {s t : State} (h : access kind va priv s = .next t)
    (hne : t.tlbs ≠ s.tlbs) : s.m = 1#1 := by
  obtain ht | ⟨⟨hm, -⟩, -⟩ := access_tlbs_cases h
  · exact absurd ht hne
  · exact hm

/-- A request that changes `M`, `TTBR`, `AbortStatus` or the TLBs is one whose rule says so. -/
theorem exec_request_writes {r : Request} {s t : State} (h : exec (requestInstr r) s = .next t) :
    (t.m ≠ s.m → ∃ b, requestInstr r = .cp15WriteM b) ∧
    (t.ttbr ≠ s.ttbr → ∃ v, requestInstr r = .cp15WriteTtbr v) ∧
    (t.abortStatus ≠ s.abortStatus →
      (∃ kind va priv, requestInstr r = accessInstr kind va priv) ∧ ∃ a, t.response = some (.abort a)) ∧
    (t.tlbs ≠ s.tlbs → requestInstr r = .tlbFlush ∨ (∃ n va, requestInstr r = .tlbLock n va) ∨
      (s.m = 1#1 ∧ ∃ kind va priv, requestInstr r = accessInstr kind va priv)) := by
  obtain ⟨kind, va, priv, rfl, hacc⟩ | ⟨b, rfl, rfl⟩ | ⟨v, rfl, rfl⟩ | ⟨rfl, rfl⟩ | ⟨n, va, rfl, hlock⟩ | ⟨rfl, rfl⟩ :=
    exec_request_cases h
  · have hframe := access_frame hacc
    exact ⟨absurd (congrArg State.m hframe :), absurd (congrArg State.ttbr hframe :),
      fun hne => ⟨⟨kind, va, priv, rfl⟩, access_abortStatus_ne hacc hne⟩,
      fun hne => .inr (.inr ⟨access_tlbs_ne hacc hne, kind, va, priv, rfl⟩)⟩
  · exact ⟨fun _ => ⟨b, rfl⟩, absurd rfl, absurd rfl, absurd rfl⟩
  · exact ⟨absurd rfl, fun _ => ⟨v, rfl⟩, absurd rfl, absurd rfl⟩
  · exact ⟨absurd rfl, absurd rfl, absurd rfl, fun _ => .inl rfl⟩
  · have hframe := execTlbLock_frame hlock
    exact ⟨absurd (congrArg State.m hframe :), absurd (congrArg State.ttbr hframe :),
      absurd (congrArg State.abortStatus hframe :), fun _ => .inr (.inl ⟨n, va, rfl⟩)⟩
  · exact ⟨absurd rfl, absurd rfl, absurd rfl, absurd rfl⟩

/-- Settles O39: a descriptor row writes the walk hardware's fields only, and a request what `exec_request_writes` and
its frame leave it. -/
theorem onlyItsOperationWritesARegister : Obligations.OnlyItsOperationWritesARegister := by
  intro i s t h
  obtain ⟨d, rfl⟩ | ⟨r, rfl⟩ := instr_cases i
  · rw [exec_descriptor] at h
    obtain rfl := Host.Outcome.next.inj h
    exact ⟨absurd rfl, absurd rfl, absurd rfl, absurd rfl, rfl, rfl, rfl, rfl, rfl⟩
  · obtain ⟨hm, httbr, hstatus, htlbs⟩ := exec_request_writes h
    refine ⟨hm, httbr, hstatus, htlbs, ?_, ?_, ?_, ?_, ?_⟩ <;> rw [exec_request_frame h]

/-- Settles O40: every step that is no store of the environment leaves memory as it is. -/
theorem memoryChangesOnlyByStores : Obligations.MemoryChangesOnlyByStores := by
  rintro s t h ⟨a, ha⟩
  obtain ⟨-, rfl⟩ | ⟨hw, ⟨-, rfl⟩ | ⟨r, rest, -, h⟩ | ⟨pa, w, rest, hi, -⟩ | ⟨pa, b, rest, hi, -⟩ | ⟨v, rest, -, rfl⟩ |
    ⟨v, rest, -, rfl⟩⟩ := step_cases h
  · exact absurd rfl ha
  · exact absurd rfl ha
  · rw [exec_request_frame h] at ha
    exact absurd rfl ha
  · exact ⟨hw, rest, .inl ⟨pa, w, hi⟩⟩
  · exact ⟨hw, rest, .inr ⟨pa, b, hi⟩⟩
  · exact absurd rfl ha
  · exact absurd rfl ha

/-! ## The arrangement of the TLBs (R28, R37) -/

/-- The two systems have the same arrangement of TLBs, with the same number of slots in each. -/
def Tlbs.SameShape (u u' : Tlbs) : Prop :=
  u'.isSplit = u.isSplit ∧ ∀ n, (u'.slots n).length = (u.slots n).length

theorem Tlbs.sameShape_refl (u : Tlbs) : u.SameShape u := ⟨rfl, fun _ => rfl⟩

theorem Tlbs.sameShape_withSlots {u : Tlbs} {n : TlbName} {x : List Slot} (hn : u.has n = true)
    (hx : x.length = (u.slots n).length) : u.SameShape (u.withSlots n x) := by
  refine ⟨Tlbs.isSplit_withSlots u n x, fun n' => ?_⟩
  by_cases h : n' = n
  · rw [h, Tlbs.slots_withSlots_same hn, hx]
  · rw [Tlbs.slots_withSlots_other h]

theorem Tlbs.sameShape_flush (u : Tlbs) (r : Bool) : u.SameShape (u.map (flushSlots r)) :=
  ⟨Tlbs.isSplit_map _ u, fun n => by rw [Tlbs.slots_map (flushSlots_nil r), length_flushSlots]⟩

/-- No request changes the arrangement. -/
theorem exec_request_sameShape {r : Request} {s t : State} (h : exec (requestInstr r) s = .next t) :
    s.tlbs.SameShape t.tlbs := by
  obtain ⟨kind, va, priv, -, hacc⟩ | ⟨b, -, rfl⟩ | ⟨v, -, rfl⟩ | ⟨-, rfl⟩ | ⟨n, va, -, hlock⟩ | ⟨-, rfl⟩ :=
    exec_request_cases h
  · obtain ht | ⟨-, -, x, ht, -⟩ := access_tlbs_cases hacc <;> rw [ht]
    · exact Tlbs.sameShape_refl _
    · exact Tlbs.sameShape_withSlots (Tlbs.has_nameFor _ _) (length_place _ _ _)
  · exact Tlbs.sameShape_refl _
  · exact Tlbs.sameShape_refl _
  · exact Tlbs.sameShape_flush _ _
  · obtain ⟨-, -, hn, ⟨_, _, -, rfl⟩ | ⟨_, _, -, -, -, rfl⟩⟩ := execTlbLock_cases hlock
    · exact Tlbs.sameShape_refl _
    · exact Tlbs.sameShape_withSlots hn (List.length_set ..)
  · exact Tlbs.sameShape_refl _

/-- Settles O41: a step changes the TLBs by a request at most, and no request changes their arrangement. -/
theorem parametersNeverChange : Obligations.ParametersNeverChange := by
  intro s t h
  refine ⟨(step_cfg_inputs h).1, ?_⟩
  obtain ⟨-, rfl⟩ | ⟨-, ⟨-, rfl⟩ | ⟨r, rest, -, h⟩ | ⟨_, _, _, -, rfl⟩ | ⟨_, _, _, -, rfl⟩ | ⟨_, _, -, rfl⟩ |
    ⟨_, _, -, rfl⟩⟩ := step_cases h
  case inr.inr.inl => exact exec_request_sameShape (s := { s with inputs := rest }) h
  all_goals exact Tlbs.sameShape_refl _

end Sys2Proof.Machine

/-! # Proofs about TLBs and tables: no stale slot, and what it hides -/

namespace Sys2Proof.Machine

/-! ## After a flush that leaves no locked entry (R63, R144, R145) -/

theorem flushed_allUnused {s : State} (h : s.noLocked ∨ s.cfg.flushRemovesLocked = true) {n : TlbName} {y : Slot}
    (hy : y ∈ s.flushed.tlbs.slots n) : y = .unused := by
  rw [State.flushed_slots] at hy
  obtain rfl | ⟨hmem, hlocked, hkeeps⟩ := mem_flushSlots hy
  · rfl
  · rcases h with h | h
    · exact absurd (h y (Tlbs.mem_allSlots_of_slots hmem)) (by simp [hlocked])
    · exact absurd h (by simp [hkeeps])

/-- Settles O48: every slot is unused, so that it agrees with any tables and matches no address. -/
theorem flushMakesTheTlbsCoherent : Obligations.FlushMakesTheTlbsCoherent := by
  intro s t hs h
  obtain rfl := Host.Outcome.next.inj ((exec_tlbFlush s).symm.trans h)
  refine ⟨fun y hy => ?_, fun kind va => hits_eq_nil.mpr fun y hy => ?_⟩
  · obtain ⟨n, hn⟩ := Tlbs.mem_allSlots.mp hy
    rw [flushed_allUnused hs hn]
    trivial
  · rw [flushed_allUnused hs hy]
    rfl

/-! ## Sections only: a walk depends on the megabyte (R164, R170) -/

/-- Addresses of one megabyte have the same table index. -/
theorem index_of_regionBase {va va' : Word} (h : regionBase .sect va' = regionBase .sect va) :
    va'.extractLsb' 20 12 = va.extractLsb' 20 12 :=
  (BitVec.append_left_inj (0#20)).mp h

/-- While page walks are not instantiated, a descriptor gives the same for all addresses of one megabyte. -/
theorem descriptorResult_congr_megabyte {p : Config.Params} (hp : p.l2Walk = .uninstantiated) (mem : Memory)
    {va va' : Word} (h : regionBase .sect va' = regionBase .sect va) (d : Descriptor) :
    descriptorResult p mem va' d = descriptorResult p mem va d := by
  cases d with
  | fault => rfl
  | sect => simp only [descriptorResult, walkSection, sectionEntry, h]
  | coarse => simp only [descriptorResult, walkCoarse, secondLevelWalk, hp]
  | fine => simp only [descriptorResult, walkFine, secondLevelWalk, hp]

theorem tableWalk_congr_megabyte {s : State} (hp : s.cfg.l2Walk = .uninstantiated) {va va' : Word}
    (h : regionBase .sect va' = regionBase .sect va) : tableWalk s va' = tableWalk s va := by
  rw [tableWalk, l1Address, index_of_regionBase h, descriptorResult_congr_megabyte hp _ h]
  rfl

/-- While page walks are not instantiated, the entry of a walk is a section's. -/
theorem region_of_tableWalk_entry {s : State} (hp : s.cfg.l2Walk = .uninstantiated) {va : Word} {e : TlbEntry}
    (hw : tableWalk s va = .entry e) : e.size = .sect ∧ e.vaBase = regionBase .sect va := by
  unfold tableWalk at hw
  cases hd : decodeDescriptor (readWord s.cfg.endian s.mem (l1Address s.ttbr va)) with
  | fault => rw [hd] at hw; cases hw
  | sect =>
    rw [hd, descriptorResult, walkSection] at hw
    split at hw
    · cases hw
    · obtain rfl := WalkResult.entry.inj hw
      exact ⟨rfl, rfl⟩
  | coarse =>
    rw [hd, descriptorResult, walkCoarse, secondLevelWalk, hp] at hw
    split at hw <;> cases hw
  | fine =>
    rw [hd, descriptorResult, walkFine, secondLevelWalk, hp] at hw
    split at hw <;> cases hw

/-- What a walk for a section gives agrees with the tables, locked or not. -/
theorem agrees_entry_of_tableWalk {s : State} (hp : s.cfg.l2Walk = .uninstantiated) {va : Word} {e : TlbEntry}
    (hw : tableWalk s va = .entry e) (locked : Bool) : (Slot.entry { e with locked := locked }).agrees s := by
  intro va' hva'
  obtain ⟨hsize, hbase⟩ := region_of_tableWalk_entry hp hw
  have hregion : regionBase .sect va' = regionBase .sect va := by
    have hin : inRegion e.size e.vaBase va' = true := hva'
    rwa [hsize, hbase, inRegion_regionBase] at hin
  have hlocked := locked_of_tableWalk hw
  rw [tableWalk_congr_megabyte hp hregion, hw]
  cases e
  cases hlocked
  rfl

/-- The fault mark a walk leaves agrees with the tables. -/
theorem agrees_faultMark_of_tableWalk {s : State} (hp : s.cfg.l2Walk = .uninstantiated) {va : Word}
    {domain : Option (BitVec 4)} (hw : tableWalk s va = .fault .sect domain) :
    (Slot.faultMark (regionBase .sect va)).agrees s := by
  intro va' hva'
  obtain rfl := (domain_of_tableWalk_fault hw).mpr rfl
  rw [tableWalk_congr_megabyte hp ((inRegion_regionBase _ _ _).mp hva'), hw]

/-- Agreement is with the tables: nothing else of the state takes part. -/
theorem agrees_congr {s t : State} (hc : t.cfg = s.cfg) (ht : t.ttbr = s.ttbr) (hm : t.mem = s.mem) {x : Slot}
    (h : x.agrees s) : x.agrees t := by
  cases x with
  | unused => trivial
  | entry e => exact fun va hva => (tableWalk_congr hc ht hm va).trans (h va hva)
  | faultMark base => exact fun va hva => (tableWalk_congr hc ht hm va).trans (h va hva)

/-- Settles O49: accesses and locks leave the tables as they are and place what a walk of them gives. -/
theorem sectionAccessesKeepCoherence : Obligations.SectionAccessesKeepCoherence := by
  intro s t hp hs
  refine ⟨fun kind va priv h => ?_, fun n va h => ?_⟩
  · rw [exec_accessInstr] at h
    have hslots := access_forall h hs (fun e hw => agrees_entry_of_tableWalk hp hw e.locked)
      (fun domain hw _ => agrees_faultMark_of_tableWalk hp hw)
    have hframe := access_frame h
    exact fun x hx => agrees_congr (congrArg State.cfg hframe :) (congrArg State.ttbr hframe :)
      (congrArg State.mem hframe :) (hslots x hx)
  · have hslots := execTlbLock_forall h hs (fun e hw => agrees_entry_of_tableWalk hp hw true)
    have hframe := execTlbLock_frame h
    exact fun x hx => agrees_congr (congrArg State.cfg hframe :) (congrArg State.ttbr hframe :)
      (congrArg State.mem hframe :) (hslots x hx)

/-! ## A coherent TLB cannot be seen (R63, R115) -/

theorem walkAnswer_of_entry {s : State} {kind : AccessKind} {va : Word} {priv : Priv} {e : TlbEntry}
    (hw : tableWalk s va = .entry e) : s.walkAnswer kind va priv = some (s.entryAnswer kind va priv e) := by
  rw [State.walkAnswer, hw]

theorem walkAnswer_of_fault {s : State} {kind : AccessKind} {va : Word} {priv : Priv} {level : Level}
    {domain : Option (BitVec 4)} (hw : tableWalk s va = .fault level domain) :
    s.walkAnswer kind va priv = some (.abort ⟨.translation, level, va, domain⟩) := by
  rw [State.walkAnswer, hw]

/-- A matching slot that agrees with the tables answers what a walk answers. -/
theorem walkAnswer_of_agrees {s : State} {kind : AccessKind} {va : Word} {priv : Priv} {x : Slot}
    (hx : x.agrees s) (hva : x.covers va = true) : s.walkAnswer kind va priv = some (s.slotAnswer kind va priv x) := by
  cases x with
  | unused => cases hva
  | entry e => exact walkAnswer_of_entry (e := { e with locked := false }) (hx va hva)
  | faultMark base => exact walkAnswer_of_fault (hx va hva)

/-- An enabled access that hits answers what a walk answers. -/
theorem access_of_hit_coherent {s : State} {kind : AccessKind} {va : Word} {priv : Priv} (hs : s.checks)
    (hc : s.coherent) (hh : hits (s.slotsFor kind) va ≠ []) :
    ∃ t, exec (accessInstr kind va priv) s = .next t ∧ t.response = s.walkAnswer kind va priv := by
  obtain ⟨x, hx, h⟩ := matchingSlotAnswers kind va priv s hs hh
  obtain ⟨hmem, hva⟩ := mem_hits.mp hx
  exact ⟨_, h, (walkAnswer_of_agrees (hc x (Tlbs.mem_allSlots_of_slots hmem)) hva).symm⟩

/-- An enabled access that misses, and goes on, answers what a walk answers. -/
theorem accessMiss_answer {s t : State} {kind : AccessKind} {va : Word} {priv : Priv}
    (h : accessMiss kind va priv s = .next t) : t.response = s.walkAnswer kind va priv := by
  obtain ⟨e, hw, rfl⟩ | ⟨level, domain, hw, rfl⟩ := accessMiss_cases h
  · rw [walkAnswer_of_entry hw, drawn_response, finishAccess_response, entryAnswer_fillTlb]
  · rw [walkAnswer_of_fault hw, drawn_response, raiseAbort_response]

/-- Settles O50: a hit answers what the walk it stands for answers, and a miss walks. -/
theorem coherentTlbIsTransparent : Obligations.CoherentTlbIsTransparent := by
  intro kind va priv s hs hc
  by_cases hh : hits (s.slotsFor kind) va = []
  · rw [exec_accessInstr, access_of_miss hs hh]
    exact ⟨fun t h => accessMiss_answer h, fun r h => accessMiss_of_walkAnswer h⟩
  · obtain ⟨u, hu, hr⟩ := access_of_hit_coherent (priv := priv) hs hc hh
    refine ⟨fun t h => ?_, fun r h => ⟨u, hu, hr.trans h⟩⟩
    obtain rfl := Host.Outcome.next.inj (hu.symm.trans h)
    exact hr

end Sys2Proof.Machine

/-! # Proofs about access control: the field an entry is checked with, and the check itself -/

namespace Sys2Proof.Machine

/-! ## The field an entry is checked with (R119, R161) -/

/-- On an entry whose field at the address is `field`, the answer is that of the check with it. -/
theorem entryAnswer_of_apFor {s : State} {kind : AccessKind} {va : Word} {priv : Priv} {e : TlbEntry} {field : BitVec 2}
    (h : apFor e va = field) :
    s.entryAnswer kind va priv e =
      match permission s.cfg field e.domain e.level kind priv s.domainControl s.otherControl with
      | .allow => Response.proceed (physicalAddress e va) e.c e.b
      | .refuse reason => Response.abort ⟨reason.toAbort, e.level, va, some e.domain⟩ := by
  subst h
  rfl

/-- The fields of the four subpages, by number. -/
theorem AccessBits.field_perSubpage (ap0 ap1 ap2 ap3 n : BitVec 2) :
    (n = 0#2 → (AccessBits.perSubpage ap0 ap1 ap2 ap3).field n = ap0) ∧
    (n = 1#2 → (AccessBits.perSubpage ap0 ap1 ap2 ap3).field n = ap1) ∧
    (n = 2#2 → (AccessBits.perSubpage ap0 ap1 ap2 ap3).field n = ap2) ∧
    (n = 3#2 → (AccessBits.perSubpage ap0 ap1 ap2 ap3).field n = ap3) := by
  refine ⟨?_, ?_, ?_, ?_⟩ <;> rintro rfl <;> rfl

/-- Settles O55: the access is the use of its one matching entry, checked with the field at the address. -/
theorem entryCheckedWithItsSubpageField : Obligations.EntryCheckedWithItsSubpageField := by
  intro kind va priv s e hs hh answerWith
  refine ⟨_, (exec_accessInstr ..).trans (access_of_single_entry hs hh), ?_⟩
  have hanswer : ∀ field, apFor e va = field →
      (drawn (finishAccess kind va priv e s)).response = some (answerWith field) := fun _ hfield =>
    (finishAccess_response ..).trans (congrArg some (entryAnswer_of_apFor hfield))
  refine ⟨fun ap hap => hanswer ap (apFor_whole hap va), fun ap0 ap1 ap2 ap3 hap n hn => ?_⟩
  have hfield : apFor e va = (AccessBits.perSubpage ap0 ap1 ap2 ap3).field n := by
    obtain ⟨hsize, rfl⟩ | ⟨hsize, rfl⟩ := hn <;> rw [apFor, hap, hsize] <;> rfl
  obtain ⟨h0, h1, h2, h3⟩ := AccessBits.field_perSubpage ap0 ap1 ap2 ap3 n
  exact ⟨fun hn => hanswer _ (hfield.trans (h0 hn)), fun hn => hanswer _ (hfield.trans (h1 hn)),
    fun hn => hanswer _ (hfield.trans (h2 hn)), fun hn => hanswer _ (hfield.trans (h3 hn))⟩

/-- The check depends on the address by the number of its subpage only. -/
theorem checkEntry_congr {s : State} {kind : AccessKind} {va va' : Word} {priv : Priv} {e : TlbEntry}
    (h : subpageNumber e.size va = subpageNumber e.size va') : checkEntry s kind va priv e = checkEntry s kind va' priv e := by
  rw [checkEntry, checkEntry, apFor, apFor, h]

/-- Settles O56: such addresses are in one subpage, or the region has none. -/
theorem subpageHasOneAccessControl : Obligations.SubpageHasOneAccessControl := by
  intro kind va va' priv s e h
  refine checkEntry_congr ?_
  obtain ⟨hsize, hva⟩ | ⟨hsize, hva⟩ | hsize | hsize := h <;> rw [hsize]
  · exact subpageNumber_small hva
  · exact subpageNumber_large hva
  · rfl
  · rfl

/-! ## The candidate check (PRESUMED: G3, G4, log entry 13) -/

theorem permission_of_candidate {p : Config.Params} (hp : p.perm = .candidate) (ap : BitVec 2) (domain : BitVec 4)
    (level : Level) (kind : AccessKind) (priv : Priv) (dc oc : Word) :
    permission p ap domain level kind priv dc oc = candidatePermission ap domain kind priv dc oc := by
  rw [permission, hp]

/-- What a right of the G3 table answers to an access of this kind. -/
def AccessRight.answer (kind : AccessKind) (priv : Priv) : AccessRight → PermAnswer
  | .noAccess => .refuse .permission
  | .readOnly => if kind = .write then .refuse .permission else .allow
  | .readWrite => .allow
  | .unpredictable => Config.permUnpredictable kind priv

section Candidate

variable {ap : BitVec 2} {domain : BitVec 4} {kind : AccessKind} {priv : Priv} {dc oc : Word}

/-- A domain field 00 or 10 refuses every access (G4). -/
theorem candidatePermission_of_noDomainAccess (h : domainField dc domain = 0b00#2 ∨ domainField dc domain = 0b10#2) :
    candidatePermission ap domain kind priv dc oc = .refuse .domain := by
  rcases h with h | h <;> simp [candidatePermission, h]

/-- A domain field 11 allows every access (G4). -/
theorem candidatePermission_of_manager (h : domainField dc domain = 0b11#2) :
    candidatePermission ap domain kind priv dc oc = .allow := by
  simp [candidatePermission, h]

/-- A domain field 01 consults the table (G3, G4). -/
theorem candidatePermission_of_client (h : domainField dc domain = 0b01#2) :
    candidatePermission ap domain kind priv dc oc =
      (candidateRight ap (oc.extractLsb' 8 1) (oc.extractLsb' 9 1) priv).answer kind priv := by
  simp only [candidatePermission, h]
  cases candidateRight ap (oc.extractLsb' 8 1) (oc.extractLsb' 9 1) priv with
  | readOnly => cases kind <;> rfl
  | _ => rfl

end Candidate

/-- A field of one bit is that bit. -/
theorem extractLsb'_one (w : Word) (i : Nat) : w.extractLsb' i 1 = BitVec.ofBool (w.getLsbD i) := by
  ext j hj
  obtain rfl : j = 0 := by omega
  simp

/-- Settles O52: the domain field decides first, then the row of the table for AP, S, R and the privilege. -/
theorem candidateDomainIsExaminedFirst : Obligations.CandidateDomainIsExaminedFirst := by
  intro p ap domain level kind priv dc oc hp field
  have hfield : domainField dc domain = field := field2_eq_shift _ _
  have hclient : field = 0b01#2 → permission p ap domain level kind priv dc oc =
      (candidateRight ap (BitVec.ofBool (oc.getLsbD 8)) (BitVec.ofBool (oc.getLsbD 9)) priv).answer kind priv := by
    intro h
    rw [permission_of_candidate hp, candidatePermission_of_client (hfield.trans h), extractLsb'_one, extractLsb'_one]
  refine ⟨fun h => ?_, fun h => ?_, ?_, ?_, ?_, ?_, fun h hap => ⟨?_, ?_, ?_, ?_⟩⟩
  · rw [permission_of_candidate hp]
    exact candidatePermission_of_noDomainAccess (hfield ▸ h)
  · rw [permission_of_candidate hp]
    exact candidatePermission_of_manager (hfield.trans h)
  · rintro h rfl
    exact hclient h
  · rintro h rfl rfl
    exact hclient h
  · rintro h rfl rfl
    exact hclient h
  · rintro h (rfl | rfl) rfl <;> exact hclient h
  all_goals
    intro hS hR
    rw [hclient h, hap, hS, hR]
  · rfl
  · cases priv <;> simp [candidateRight, AccessRight.answer]
  · rfl
  · rfl

/-- Settles O51: a domain without access; AP 00 with R set in a client domain; a manager domain. -/
theorem candidateCheckHasThreeOutcomes : Obligations.CandidateCheckHasThreeOutcomes := by
  intro p level priv hp
  simp only [permission_of_candidate hp]
  refine ⟨⟨0b00#2, 0#4, 0#32, 0#32, fun kind => ⟨.domain, candidatePermission_of_noDomainAccess (by decide)⟩⟩, ?_,
    ⟨0b00#2, 0#4, 0b11#32, 0#32, fun kind => candidatePermission_of_manager (by decide)⟩⟩
  refine ⟨0b00#2, 0#4, 0b01#32, 0b10_0000_0000#32, ?_, ?_⟩ <;> cases priv <;> decide

/-! ## Every instantiation of the check (R119) -/

/-- Settles O54: the uninterpreted function has the property by its type, and the candidate for every level. -/
theorem everyCheckHasThreeOutcomes : Obligations.EveryCheckHasThreeOutcomes := by
  intro p priv hp
  cases hperm : p.perm with
  | uninstantiated => exact absurd hperm hp
  | uninterpreted =>
    simp only [permission, hperm]
    exact ⟨Config.perm.noAccess priv, Config.perm.readOnly priv, Config.perm.readWrite priv⟩
  | candidate =>
    obtain ⟨⟨ap, domain, dc, oc, hno⟩, ⟨ap', domain', dc', oc', hread, hwrite⟩, ap'', domain'', dc'', oc'', hall⟩ :=
      candidateCheckHasThreeOutcomes p .sect priv hperm
    exact ⟨⟨ap, domain, .sect, dc, oc, hno⟩, ⟨ap', domain', .sect, dc', oc', hread, _, hwrite⟩,
      ⟨ap'', domain'', .sect, dc'', oc'', hall .read, hall .write⟩⟩

/-! ## The candidate abort record (PRESUMED: G7, G8, log entry 18) -/

theorem recordAbort_of_candidate {s : State} (h : s.cfg.abortRecord = .candidate) (a : Abort) (kind : AccessKind) :
    recordAbort s a kind = candidateAbortRecord s.abortStatus a kind := by
  rw [recordAbort, h]

/-- An aborted data access leaves the status word and the address (G8). -/
theorem candidateAbortRecord_of_data {kind : AccessKind} (h : kind ≠ .ifetch) (old : AbortStatus) (a : Abort) :
    candidateAbortRecord old a kind =
      { status := 0#24 ++ a.domain.getD (Config.statusDomainFiller a) ++ candidateStatusCode a.reason a.level
        address := a.va } := by
  cases kind with
  | ifetch => exact absurd rfl h
  | read => rfl
  | write => rfl

/-- The three fields of the status word (G8). -/
theorem statusWord_fields (domain code : BitVec 4) :
    (0#24 ++ domain ++ code).extractLsb' 0 4 = code ∧ (0#24 ++ domain ++ code).extractLsb' 4 4 = domain ∧
      (0#24 ++ domain ++ code).extractLsb' 8 24 = 0#24 := by
  refine ⟨BitVec.extractLsb'_append_eq_right, ?_, ?_⟩
  · rw [BitVec.extractLsb'_append_eq_of_le (by decide)]
    exact BitVec.extractLsb'_append_eq_right
  · rw [BitVec.extractLsb'_append_eq_of_le (by decide), BitVec.extractLsb'_append_eq_of_le (by decide)]
    exact BitVec.extractLsb'_eq_self

/-- An access that aborts names its own address (R192). -/
theorem access_abort_va {kind : AccessKind} {va : Word} {priv : Priv} {s t : State} {a : Abort}
    (h : access kind va priv s = .next t) (hr : t.response = some (.abort a)) : a.va = va := by
  obtain ⟨r, hr', -, ⟨pa, c, b, rfl⟩ | ⟨-, a', rfl, hva, -⟩⟩ := access_answer h <;> cases hr'.symm.trans hr
  exact hva

/-- Settles O53: the access recorded its abort, of its own address, with the code and the domain in their fields. -/
theorem candidateAbortStatusRecorded : Obligations.CandidateAbortStatusRecorded := by
  intro kind va priv s t a hrecord h hr
  rw [exec_accessInstr] at h
  have hstatus := access_abort_recorded h hr
  rw [recordAbort_of_candidate hrecord] at hstatus
  refine ⟨?_, fun hkind => ?_⟩
  · rintro rfl
    exact hstatus
  rw [candidateAbortRecord_of_data hkind] at hstatus
  obtain ⟨hcode, hdomain, hzero⟩ :=
    statusWord_fields (a.domain.getD (Config.statusDomainFiller a)) (candidateStatusCode a.reason a.level)
  rw [hstatus]
  refine ⟨access_abort_va h hr, ?_, ?_, ?_, ?_, ?_, ?_, fun d hd => ?_, hzero⟩
  case refine_7 => rw [hdomain, hd]; rfl
  all_goals
    intro hreason hlevel
    rw [hcode, hreason, hlevel]
    rfl

end Sys2Proof.Machine
